-- ==== Sys2Proof/Word.lean ====
section
/-! DEFINITION. The word types of the block (00_scope.md R8, R9: bit 0 is the least significant bit everywhere). -/

namespace Sys2Proof

/-- A byte of the input buffer. -/
abbrev Byte := BitVec 8

/-- A 4-bit sample code, one nibble of an input byte (00_scope.md R7, R18). -/
abbrev Code := BitVec 4

/-- A 16-bit two's-complement value: a predictor, a decoded PCM sample (00_scope.md R8). -/
abbrev Sample := BitVec 16

/-- A 32-bit value: the cursor, a length, an operand, a snapshot word (00_scope.md R8). -/
abbrev Word := BitVec 32

/-- A 64-bit command or response word (30_encoding.md R60, R64). -/
abbrev Command := BitVec 64

end Sys2Proof
end

