-- ==== Sys2Proof/Syntax.lean ====
section
/-! DEFINITION. The ten commands (30_encoding.md R63), one constructor per row of the opcode table.

Operands are the numbers R62 assembles from the fields: signed ones are `Int`, counts, positions and channel numbers are
`Nat`. A field a command ignores (R61, R62) is no operand. `WellFormed` gives their ranges. -/

namespace Sys2Proof

/-- A decoded command. -/
inductive Instr where
  /-- SEED `ch, pred, idx` (43_streaming.md R114). -/
  | seed (ch : Nat) (pred : Int) (idx : Int)
  /-- SEED_BYTES (43_streaming.md R115). -/
  | seedBytes
  /-- PARSE `ch, n` (43_streaming.md R116). -/
  | parse (ch : Nat) (n : Nat)
  /-- PARSE_BLOCKS `ch, k` (43_streaming.md R120). -/
  | parseBlocks (ch : Nat) (k : Nat)
  /-- SKIP `ch, n` (43_streaming.md R122). -/
  | skip (ch : Nat) (n : Nat)
  /-- GET_STATE `ch` (43_streaming.md R125). -/
  | getState (ch : Nat)
  /-- SET_STATE `ch, snap` with `snap = {idx, pred}` (43_streaming.md R126). -/
  | setState (ch : Nat) (pred : Int) (idx : Nat)
  /-- BLOCK_DECODE `c` (42_block_decoder.md R100). -/
  | blockDecode (c : Nat)
  /-- ENCODE (44_encoder_stub.md R140). -/
  | encodeStub
  /-- SEEK `pos` (43_streaming.md R130). -/
  | seek (pos : Nat)
  deriving DecidableEq, Repr

/-- The `OP` field of a command (30_encoding.md R63). -/
def Instr.opcode : Instr → BitVec 8
  | .seed _ _ _ => 0x01
  | .seedBytes => 0x02
  | .parse _ _ => 0x03
  | .parseBlocks _ _ => 0x04
  | .skip _ _ => 0x05
  | .getState _ => 0x06
  | .setState _ _ _ => 0x07
  | .blockDecode _ => 0x08
  | .encodeStub => 0x09
  | .seek _ => 0x0A

/-- The channel a command names (43_streaming.md R111; SEED_BYTES, BLOCK_DECODE, ENCODE and SEEK name none, R61). -/
def Instr.channel? : Instr → Option Nat
  | .seed ch _ _ => some ch
  | .seedBytes => none
  | .parse ch _ => some ch
  | .parseBlocks ch _ => some ch
  | .skip ch _ => some ch
  | .getState ch => some ch
  | .setState ch _ _ => some ch
  | .blockDecode _ => none
  | .encodeStub => none
  | .seek _ => none

end Sys2Proof
end

