-- ==== Sys2Proof/WellFormed.lean ====
section
/-! DEFINITION. The operand ranges a command word can carry (30_encoding.md R60, R62). -/

namespace Sys2Proof

/-- A channel number fits the 8-bit `CH` field (R60). -/
def isChannelField (ch : Nat) : Bool := decide (ch < 2 ^ 8)

/-- A signed operand fits a 16-bit field read with `sext_16` (R62). -/
def isSigned16 (x : Int) : Bool := decide (-2 ^ 15 ≤ x ∧ x < 2 ^ 15)

/-- An unsigned operand fits a 16-bit field read with `zext_16` (R62). -/
def isUnsigned16 (x : Nat) : Bool := decide (x < 2 ^ 16)

/-- An unsigned operand fits the 32-bit `ARG` field (R62). -/
def isUnsigned32 (x : Nat) : Bool := decide (x < 2 ^ 32)

/-- Every operand is one its field can spell. What the command then does with it (clamping it, raising an error,
refusing it) is its meaning's affair. -/
def Instr.wellFormed : Instr → Bool
  | .seed ch pred idx => isChannelField ch && isSigned16 pred && isSigned16 idx
  | .seedBytes => true
  | .parse ch n => isChannelField ch && isUnsigned32 n
  | .parseBlocks ch k => isChannelField ch && isUnsigned32 k
  | .skip ch n => isChannelField ch && isUnsigned32 n
  | .getState ch => isChannelField ch
  | .setState ch pred idx => isChannelField ch && isSigned16 pred && isUnsigned16 idx
  | .blockDecode c => isUnsigned32 c
  | .encodeStub => true
  | .seek pos => isUnsigned32 pos

end Sys2Proof
end

