-- ==== Sys2Proof/Decode.lean ====
section
/-! DEFINITION. The command decoder and the encoder (30_encoding.md R60 to R63, R69, R71, R72).

A command word is delivered whole, not fetched from a memory (20_memory.md R45), so the decoder reads one 64-bit word.
"every command is 64 bits, decoded by rule R63 alone" (R71): no strap and no mode takes part. -/

namespace Sys2Proof

/-- Why a word spells no command (30_encoding.md R69). -/
inductive DecodeError where
  /-- `RSV` is not zero. -/
  | reservedNotZero
  /-- `OP` is 0x00 or 0x0B to 0xFF. -/
  | reservedOpcode (op : BitVec 8)
  deriving DecidableEq, Repr

/-- `OP`, `cmd[63:56]` (R60). -/
def opField (cmd : Command) : BitVec 8 := cmd.extractLsb' 56 8

/-- `CH`, `cmd[55:48]` (R60). -/
def chField (cmd : Command) : BitVec 8 := cmd.extractLsb' 48 8

/-- `RSV`, `cmd[47:32]` (R60). -/
def rsvField (cmd : Command) : BitVec 16 := cmd.extractLsb' 32 16

/-- `ARG`, `cmd[31:0]` (R60). -/
def argField (cmd : Command) : BitVec 32 := cmd.extractLsb' 0 32

/-- `ARG[15:0]`: the predictor operand of SEED and SET_STATE (R62). -/
def argLow (arg : Word) : BitVec 16 := arg.extractLsb' 0 16

/-- `ARG[31:16]`: the step index operand of SEED and SET_STATE (R62). -/
def argHigh (arg : Word) : BitVec 16 := arg.extractLsb' 16 16

/-- The opcode map (R63) with the operand assembly of R62, for a word whose `RSV` is zero. -/
def decodeFields (op ch : BitVec 8) (arg : Word) : Except DecodeError Instr :=
  match op with
  | 0x01#8 => .ok (.seed ch.toNat (argLow arg).toInt (argHigh arg).toInt)
  | 0x02#8 => .ok .seedBytes
  | 0x03#8 => .ok (.parse ch.toNat arg.toNat)
  | 0x04#8 => .ok (.parseBlocks ch.toNat arg.toNat)
  | 0x05#8 => .ok (.skip ch.toNat arg.toNat)
  | 0x06#8 => .ok (.getState ch.toNat)
  | 0x07#8 => .ok (.setState ch.toNat (argLow arg).toInt (argHigh arg).toNat)
  | 0x08#8 => .ok (.blockDecode arg.toNat)
  | 0x09#8 => .ok .encodeStub
  | 0x0A#8 => .ok (.seek arg.toNat)
  | op => .error (.reservedOpcode op)

/-- Decoding, total on every 64-bit word. Reserved bits are looked at first (60_exceptions.md R167). -/
def decode (cmd : Command) : Except DecodeError Instr :=
  if rsvField cmd ≠ 0 then .error .reservedNotZero
  else decodeFields (opField cmd) (chField cmd) (argField cmd)

/-- A command word from its fields; `RSV = 0` (R60, R72). -/
def packCommand (op ch : BitVec 8) (arg : Word) : Command := op ++ ch ++ (0 : BitVec 16) ++ arg

/-- `ARG = {idx, pred}`, the operand layout of SEED and SET_STATE (R62, R72). -/
def packPair (idx pred : BitVec 16) : Word := idx ++ pred

/-- The encoder: R72's table. "The assembler writes 0 in every ignored field." -/
def encode : Instr → Command
  | .seed ch pred idx => packCommand 0x01 (BitVec.ofNat 8 ch) (packPair (BitVec.ofInt 16 idx) (BitVec.ofInt 16 pred))
  | .seedBytes => packCommand 0x02 0 0
  | .parse ch n => packCommand 0x03 (BitVec.ofNat 8 ch) (BitVec.ofNat 32 n)
  | .parseBlocks ch k => packCommand 0x04 (BitVec.ofNat 8 ch) (BitVec.ofNat 32 k)
  | .skip ch n => packCommand 0x05 (BitVec.ofNat 8 ch) (BitVec.ofNat 32 n)
  | .getState ch => packCommand 0x06 (BitVec.ofNat 8 ch) 0
  | .setState ch pred idx =>
    packCommand 0x07 (BitVec.ofNat 8 ch) (packPair (BitVec.ofNat 16 idx) (BitVec.ofInt 16 pred))
  | .blockDecode c => packCommand 0x08 0 (BitVec.ofNat 32 c)
  | .encodeStub => packCommand 0x09 0 0
  | .seek pos => packCommand 0x0A 0 (BitVec.ofNat 32 pos)

/-- The command the decoder reads from a table word: a command is ONE 64-bit word whose bit 0 is its least significant
bit, as `opcode_table.json` numbers it; bits above `nbits` are 0. -/
def decodeTableWord (nbits w : Nat) : Option Instr :=
  if nbits ≤ 64 then (decode (BitVec.ofNat 64 (w % 2 ^ nbits))).toOption else none

end Sys2Proof
end

