-- ==== Sys2Proof/Config.lean ====
section
/-! DEFINITION. The construction-time parameters of the block (00_scope.md R6, 10_state.md R29) and the one free value.

The parameters are not fixed here: `State` holds the values sampled at the last reset, so every claim ranges over them. -/

namespace Sys2Proof

/-- `VARIANT`: the clamping policy, "a small closed tagged-variant" (40_tables_and_policy.md R86). -/
inductive Variant where
  | ima
  | nds
  deriving DecidableEq, Repr

/-- `NIBBLE_ORDER`: which code of a byte the streaming commands decode first (43_streaming.md R112). -/
inductive NibbleOrder where
  | lowFirst
  | highFirst
  deriving DecidableEq, Repr

/-- The four straps (00_scope.md R6). `lastChannel` is `NCH - 1`, so that `NCH` is 1 to 256 by construction. -/
structure Straps where
  variant : Variant
  nibbleOrder : NibbleOrder
  lastChannel : Fin 256
  preamblePredClamp : Bool
  deriving DecidableEq, Repr

/-- `NCH`, the number of channels of the streaming state file, 1 to 256 (00_scope.md R6). -/
def Straps.nch (p : Straps) : Nat := p.lastChannel.val + 1

/-- The straps `State.reset` was sampled with. DESIGN CHOICE (log 3), unsafe: the spec names no value for `VARIANT` and
`NCH` ("none; must be given"); `LOW_FIRST` and 0 are the defaults of 92_eei_decisions.md. -/
def Config.resetStraps : Straps :=
  { variant := .ima, nibbleOrder := .lowFirst, lastChannel := 0, preamblePredClamp := false }

/-- What the step-size ROM answers at an index beyond 88: a FREE VALUE (log 7). "No rule of this spec indexes either table
outside those bounds" (00_scope.md R12), so no reachable state meets it (`State.Inv`). DESIGN CHOICE, safe. -/
opaque Config.stepSizeBeyond : Nat → Nat

end Sys2Proof
end

