-- ==== Sys2Proof/Machine/State.lean ====
section
/-! DEFINITION. The machine's state, as plain data (10_state.md), the host's actions, and the reasons a step can stop. -/

namespace Sys2Proof.Machine

/-- One entry of the channel state file (10_state.md R20 to R22). `step` is not state (R23). -/
structure ChannelState where
  /-- 16 bits, two's complement (R21). -/
  predictor : Sample
  /-- 7 bits, unsigned; 89 to 127 are never written (R22). -/
  stepIndex : BitVec 7
  deriving DecidableEq, Repr

/-- The zero-initialized channel state of reset (10_state.md R34). -/
def ChannelState.zero : ChannelState := { predictor := 0, stepIndex := 0 }

/-- One entry of the sink `OUT` (10_state.md R27). -/
structure OutEntry where
  chan : BitVec 8
  sample : Sample
  deriving DecidableEq, Repr

/-- The status of a response: exactly four (30_encoding.md R65, 93_implementation_defined.md U11). -/
inductive Status where
  | ok
  | invalidChannel
  | notImplemented
  | illegalCommand
  deriving DecidableEq, Repr

/-- A response (30_encoding.md R64); `Response.word` is its 64-bit word. -/
structure Response where
  status : Status
  val : Word
  deriving DecidableEq, Repr

/-- What the host may do, only while no command executes (70_reset_and_hazards.md R186). -/
inductive HostAction where
  /-- `.reset`: the host applies reset; the straps are sampled then (R180; log 4). -/
  | reset (straps : Straps)
  /-- `.input b0 b1 ...`: replaces the input buffer. -/
  | loadInput (bytes : List Byte)
  /-- Sends one command word and waits for the response. -/
  | issue (cmd : Command)
  /-- Reads entries of `OUT`: no effect on the state. -/
  | readOutput
  /-- `.drain`: removes all entries from `OUT` after reading them. -/
  | drain
  /-- Reads and removes the `n` oldest entries of `OUT` and leaves the others: "the host may read and remove entries from
  the front between commands" (10_state.md R27; log 20). -/
  | takeFront (n : Nat)
  deriving DecidableEq, Repr

/-- Why the machine stops: the spec's `stuck` (00_scope.md R15), "no step, no response, no state change". -/
inductive Fault where
  /-- Fewer unread bytes than the command needs: raised by PARSE, SKIP and SEED_BYTES (43_streaming.md R118) and by
  BLOCK_DECODE (42_block_decoder.md R108). Safe: the run stops where the spec gives it no end (log 8). -/
  | stuckShortInput
  /-- PARSE_BLOCKS would reach a last group of 1 to 3 bytes (43_streaming.md R121). Safe (log 8). -/
  | stuckPartialGroup
  deriving DecidableEq, Repr

/-- Where the model gives no meaning. -/
inductive Refusal where
  /-- An instruction without a meaning yet; raised only by `exec`'s arms. Safe. -/
  | notModelled (mnemonic : String)
  /-- The spec's `refuse`: SET_STATE with a step index field of 89 to 65535 (43_streaming.md R127). Raised by SET_STATE.
  Safe: the spec gives this command no meaning (log 9). -/
  | impossibleSnapshot
  /-- The host loads more than `2^32 - 1` bytes, which no input buffer holds (10_state.md R26). Raised by the step of
  `HostAction.loadInput`, by no command. Safe (log 13). -/
  | inputTooLong
  deriving DecidableEq, Repr

/-- The whole state: the spec's own (`ch` to `out`), the sampled straps, and the model's own record of the host
(`pending`, `responses`, `drained`; 10_state.md R33 leaves these with the host; log 1, log 2). -/
structure State where
  /-- The straps sampled at the last reset (10_state.md R29, 70_reset_and_hazards.md R180). -/
  straps : Straps
  /-- `CH[0]` to `CH[NCH-1]` (R20). -/
  ch : List ChannelState
  /-- `in_cur` (R25). -/
  inCur : Word
  /-- `IN`, cells in canonical form (R26; `Memory.wf`). -/
  inBuf : List Host.Cell
  /-- `IN_LEN` (R26). -/
  inLen : Word
  /-- `OUT`, oldest entry first (R27). -/
  out : List OutEntry
  /-- The host actions still to come, next first (70_reset_and_hazards.md R185). -/
  pending : List HostAction
  /-- The responses delivered, oldest first (R185). -/
  responses : List Response
  /-- The entries drained by the host, oldest first (R185, R186). -/
  drained : List OutEntry
  deriving DecidableEq, Repr

/-- The channel state file right after reset: every entry zero-initialized (10_state.md R34). -/
def resetChannels (straps : Straps) : List ChannelState := List.replicate straps.nch ChannelState.zero

/-- The machine right after reset (10_state.md R34). The straps are a DESIGN CHOICE (log 3); the host's program is empty:
a program comes from outside (log 16). -/
def State.reset : State :=
  { straps := Config.resetStraps
    ch := resetChannels Config.resetStraps
    inCur := 0
    inBuf := []
    inLen := 0
    out := []
    pending := []
    responses := []
    drained := [] }

end Sys2Proof.Machine
end

