-- ==== Sys2Proof/Machine/Memory.lean ====
section
/-! DEFINITION. The input buffer `IN` as plain data: (index, byte) cells, indices strictly rising, no cell equal to what
an unlisted index reads as (10_state.md R26, 20_memory.md R49). `IN_LEN` is a register of its own: an index at or
beyond it does not exist and no command reads there (20_memory.md R50). -/

namespace Sys2Proof.Machine

/-- What an unlisted index reads as. It is a matter of representation: every index below `IN_LEN` was loaded by the host,
so a byte nobody wrote is never read. DESIGN CHOICE (log 5), unsafe in form. -/
def Memory.unlisted : Byte := 0

/-- The byte at an index. -/
def Memory.read : List Host.Cell → Nat → Byte
  | [], _ => Memory.unlisted
  | (k, b) :: rest, a => if k = a then b else Memory.read rest a

/-- The cells of a run of bytes that starts at index `a`: loading the buffer (70_reset_and_hazards.md R186). -/
def Memory.ofBytes (a : Nat) : List Byte → List Host.Cell
  | [] => []
  | b :: rest => if b = Memory.unlisted then Memory.ofBytes (a + 1) rest else (a, b) :: Memory.ofBytes (a + 1) rest

/-- Every index is at least `lo`, the indices rise strictly, and no cell holds the unlisted byte. -/
def Memory.wfFrom (lo : Nat) : List Host.Cell → Bool
  | [] => true
  | (k, b) :: rest => decide (lo ≤ k) && decide (b ≠ Memory.unlisted) && Memory.wfFrom (k + 1) rest

/-- The canonical form. -/
def Memory.wf (m : List Host.Cell) : Bool := Memory.wfFrom 0 m

/-- No cell stands at or beyond `len`. -/
def Memory.below (len : Nat) (m : List Host.Cell) : Bool := m.all (fun c => decide (c.1 < len))

/-- The `n` bytes from index `a` on, in increasing index order (20_memory.md R53). -/
def Memory.bytesAt (m : List Host.Cell) (a : Nat) : Nat → List Byte
  | 0 => []
  | n + 1 => Memory.read m a :: Memory.bytesAt m (a + 1) n

end Sys2Proof.Machine
end

