-- ==== Sys2Proof/Machine/Operands.lean ====
section
/-! DEFINITION. How bytes, codes, straps, snapshots and sink entries are laid out (20_memory.md R40 to R42,
30_encoding.md R66 to R68, 10_state.md R29). The command operands themselves are assembled in `Decode` (R62). -/

namespace Sys2Proof.Machine

/-- `{hi, lo}`: a little-endian 16-bit value, the byte at the lower index is the less significant one (R40). -/
def le16 (lo hi : Byte) : BitVec 16 := hi ++ lo

/-- `b[3:0]` (00_scope.md R9). -/
def lowNibble (b : Byte) : Code := b.extractLsb' 0 4

/-- `b[7:4]` (00_scope.md R9). -/
def highNibble (b : Byte) : Code := b.extractLsb' 4 4

/-- `Nibbles(b)`: the two codes of a byte in the streaming commands' decode order (43_streaming.md R112). HIGH_FIRST is
the spec's reading of a setting no real format validates (log 14). -/
def nibbles : NibbleOrder → Byte → Code × Code
  | .lowFirst, b => (lowNibble b, highNibble b)
  | .highFirst, b => (highNibble b, lowNibble b)

/-- The snapshot word of a channel state, `{zext_16(step_index), to_i16_bits(predictor)}` (30_encoding.md R67). -/
def ChannelState.snapshot (st : ChannelState) : Word := st.stepIndex.setWidth 16 ++ st.predictor

/-- The 32-bit word of a sink entry, `{0[7:0], chan[7:0], sample[15:0]}` (30_encoding.md R68). -/
def OutEntry.word (e : OutEntry) : Word := (0 : BitVec 8) ++ e.chan ++ e.sample

/-- The byte view of a sink: for each entry the sample's low byte, then its high byte; no tag (20_memory.md R42). -/
def outBytes : List OutEntry → List Byte
  | [] => []
  | e :: rest => e.sample.extractLsb' 0 8 :: e.sample.extractLsb' 8 8 :: outBytes rest

/-- `VARIANT` as its one strap bit (10_state.md R29). -/
def variantOfBit (b : BitVec 1) : Variant := if b = 0 then .ima else .nds

/-- `NIBBLE_ORDER` as its one strap bit (10_state.md R29). -/
def nibbleOrderOfBit (b : BitVec 1) : NibbleOrder := if b = 0 then .lowFirst else .highFirst

end Sys2Proof.Machine
end

