-- ==== Sys2Proof/Machine/Rom.lean ====
section
/-! DEFINITION. The quantization table ROMs and the variant policy (40_tables_and_policy.md). -/

namespace Sys2Proof.Machine

/-- `IndexTable`, 16 signed entries (R80). -/
def indexTable : List Int := [-1, -1, -1, -1, 2, 4, 6, 8, -1, -1, -1, -1, 2, 4, 6, 8]

/-- `IndexTable[s]` (R80). -/
def indexAdjust (s : Code) : Int := indexTable.getD s.toNat 0

/-- `StepSizeTable`, 89 entries (R81). PRESUMED (log 6), unsafe: the source fixes only entries 0, 8 and 88, their number
and their order; the others are R81's "standard IMA ADPCM step-size table", from general knowledge (93 G1). -/
def stepSizeTable : List Nat :=
  [7, 8, 9, 10, 11, 12, 13, 14, 16, 17] ++
  [19, 21, 23, 25, 28, 31, 34, 37, 41, 45] ++
  [50, 55, 60, 66, 73, 80, 88, 97, 107, 118] ++
  [130, 143, 157, 173, 190, 209, 230, 253, 279, 307] ++
  [337, 371, 408, 449, 494, 544, 598, 658, 724, 796] ++
  [876, 963, 1060, 1166, 1282, 1411, 1552, 1707, 1878, 2066] ++
  [2272, 2499, 2749, 3024, 3327, 3660, 4026, 4428, 4871, 5358] ++
  [5894, 6484, 7132, 7845, 8630, 9493, 10442, 11487, 12635, 13899] ++
  [15289, 16818, 18500, 20350, 22385, 24623, 27086, 29794, 32767]

/-- `StepSizeTable[i]` (R81, R12). Beyond index 88 the answer is the free value `Config.stepSizeBeyond` (log 7). -/
def stepSize (i : BitVec 7) : Nat :=
  match stepSizeTable[i.toNat]? with
  | some step => step
  | none => Config.stepSizeBeyond i.toNat

/-- `ClampStepIndex(i)`: 0 below 0, `table_size - 1 = 88` at 89 and above (R83). -/
def clampStepIndex (i : Int) : Int := if i < 0 then 0 else if 89 ≤ i then 88 else i

/-- The lower bound of the predictor clamp, "the only behavioral difference between variants" (R84 to R86). -/
def predictorFloor : Variant → Int
  | .ima => -32768
  | .nds => -32767

/-- `ClampPredictor(p)` (R84, R85). -/
def clampPredictor (v : Variant) (p : Int) : Int := min 32767 (max (predictorFloor v) p)

end Sys2Proof.Machine
end

