-- ==== Sys2Proof/Machine/Sample.lean ====
section
/-! DEFINITION. The per-sample decode, "the single source of truth; both decoders must call exactly this procedure per
nibble" (41_sample_decode.md), and the preamble install (43_streaming.md R113).

All arithmetic is on exact integers, which the 32-bit working value of the source holds without wrapping (R96; log 15). -/

namespace Sys2Proof.Machine

/-- Steps 2 and 3 of R90: each shift truncates on its own, before the sum (R91). -/
def sampleDiff (step : Nat) (s : Code) : Nat :=
  step >>> 3 + (if s.getLsbD 0 then step >>> 2 else 0) + (if s.getLsbD 1 then step >>> 1 else 0)
    + (if s.getLsbD 2 then step else 0)

/-- Step 4 of R90: the code is sign and magnitude, bit 3 the sign (R97). -/
def nextPredictor (v : Variant) (pred : Int) (diff : Nat) (s : Code) : Int :=
  clampPredictor v (if s.getLsbD 3 then pred - diff else pred + diff)

/-- `DecodeSample(st, s)` (R90). -/
def decodeSample (v : Variant) (st : ChannelState) (s : Code) : ChannelState × Sample :=
  let step := stepSize st.stepIndex
  let diff := sampleDiff step s
  let pred := BitVec.ofInt 16 (nextPredictor v st.predictor.toInt diff s)
  let idx := BitVec.ofInt 7 (clampStepIndex (st.stepIndex.toNat + indexAdjust s))
  (⟨pred, idx⟩, pred)

/-- `DecodeByte(st, b)`: both codes of a byte, for one channel (43_streaming.md R117). -/
def decodeByte (p : Straps) (st : ChannelState) (b : Byte) : ChannelState × Sample × Sample :=
  let codes := nibbles p.nibbleOrder b
  let first := decodeSample p.variant st codes.1
  let second := decodeSample p.variant first.1 codes.2
  (second.1, first.2, second.2)

/-- `InstallPreamble(pred, idx)`: the step index is always clamped, the predictor only when `PREAMBLE_PRED_CLAMP = 1`
(43_streaming.md R113). -/
def installPreamble (p : Straps) (pred idx : Int) : ChannelState :=
  { predictor := BitVec.ofInt 16 (if p.preamblePredClamp then clampPredictor p.variant pred else pred)
    stepIndex := BitVec.ofInt 7 (clampStepIndex idx) }

end Sys2Proof.Machine
end

