-- ==== Sys2Proof/Machine/Ops.lean ====
section
/-! DEFINITION. The named operations over the state: the memory primitives of 00_scope.md R14, the channel file, the
response port, raising an error, and the loops the commands share. -/

namespace Sys2Proof.Machine

/-- What a meaning and a step answer. -/
abbrev Result := Host.Outcome State Fault Refusal

/-- `InAvail() = max(0, IN_LEN - in_cur)` (R14). -/
def State.inAvail (s : State) : Nat := s.inLen.toNat - s.inCur.toNat

/-- The byte `InRead()` returns, `IN[in_cur]` (R14). Every command checks `InAvail()` before it reads (20_memory.md R50). -/
def State.inByte (s : State) : Byte := Memory.read s.inBuf s.inCur.toNat

/-- What `InRead()` leaves: `in_cur <- in_cur + 1`, nothing else (R14). -/
def State.advance (s : State) : State := { s with inCur := s.inCur + 1 }

/-- `CH[c]` (10_state.md R20). -/
def State.readCh (s : State) (c : Nat) : ChannelState := s.ch.getD c ChannelState.zero

/-- `CH[c] <- st` (10_state.md R20). -/
def State.writeCh (s : State) (c : Nat) (st : ChannelState) : State := { s with ch := s.ch.set c st }

/-- `OutAppend(c, x)` (R14): the only write of the block to memory. -/
def State.outAppend (s : State) (c : Nat) (x : Sample) : State :=
  { s with out := s.out ++ [⟨BitVec.ofNat 8 c, x⟩] }

/-- `in_cur <- pos` (43_streaming.md R130). -/
def State.setCursor (s : State) (pos : Nat) : State := { s with inCur := BitVec.ofNat 32 pos }

/-- `respond(status, val)`: the response is delivered (30_encoding.md R64). -/
def State.respond (s : State) (status : Status) (val : Word) : State :=
  { s with responses := s.responses ++ [⟨status, val⟩] }

/-- A command that completes answers `OK` with `VAL = in_cur` after the command (30_encoding.md R64). -/
def State.finish (s : State) : Result := .next (s.respond .ok s.inCur)

/-- RAISING AN ERROR, the block's whole exception entry (60_exceptions.md R160, R168): the core saves nothing, changes no
mode and transfers control nowhere; it delivers the response with `VAL = 0`. There is no return from it (R169): the core
is ready for the next command. -/
def State.raise (s : State) (kind : Status) : Result := .next (s.respond kind 0)

/-- The channel check of the common prologue (43_streaming.md R110, R111). Its `RSV` check is `decode`'s. -/
def State.onChannel (s : State) (c : Nat) (body : Result) : Result :=
  if s.straps.nch ≤ c then s.raise .invalidChannel else body

/-! ### The streaming loop (43_streaming.md R116, R122, R123) -/

/-- One byte for channel `c`: read it, decode its two codes, append both samples when `emit`. -/
def State.decodeOne (emit : Bool) (c : Nat) (s : State) : State :=
  let r := decodeByte s.straps (s.readCh c) s.inByte
  let t := s.advance.writeCh c r.1
  if emit then (t.outAppend c r.2.1).outAppend c r.2.2 else t

/-- `repeat n times`: PARSE with `emit`, SKIP without ("define both from one function with a flag", R123). -/
def State.decodeRun (emit : Bool) (c : Nat) : Nat → State → State
  | 0, s => s
  | n + 1, s => State.decodeRun emit c n (s.decodeOne emit c)

/-! ### Preambles in the input (30_encoding.md R66) -/

/-- `InRead16s()`'s value at the cursor, low byte first (R14, 20_memory.md R40). -/
def State.in16 (s : State) : Int := (le16 s.inByte s.advance.inByte).toInt

/-- The channel state one preamble installs: predictor, then step index (42_block_decoder.md R101, 43_streaming.md R115). -/
def State.preamble (s : State) : ChannelState :=
  installPreamble s.straps s.in16 s.advance.advance.in16

/-- The cursor past one preamble. -/
def State.pastPreamble (s : State) : State := s.advance.advance.advance.advance

/-- SEED_BYTES' loop: the channels from `c` on, `m` of them, from consecutive preambles (43_streaming.md R115). -/
def State.seedRun : Nat → Nat → State → State
  | 0, _, s => s
  | m + 1, c, s => State.seedRun m (c + 1) (s.pastPreamble.writeCh c s.preamble)

/-! ### The block decoder's loops (42_block_decoder.md R100) -/

/-- BLOCK_DECODE's preamble loop: the scratch file `B` of `m` channels, and the state past them (R101). -/
def State.blockPreambles : Nat → State → List ChannelState × State
  | 0, s => ([], s)
  | m + 1, s =>
    let r := State.blockPreambles m s.pastPreamble
    (s.preamble :: r.1, r.2)

/-- Code number `k` belongs to channel `k mod C` (R102). -/
def State.blockCode (c k : Nat) (code : Code) (bs : List ChannelState × State) : List ChannelState × State :=
  let r := decodeSample bs.2.straps.variant (bs.1.getD (k % c) ChannelState.zero) code
  (bs.1.set (k % c) r.1, bs.2.outAppend (k % c) r.2)

/-- One byte of the block: the low code, then the high code, whatever `NIBBLE_ORDER` says (R103). -/
def State.blockByte (c k : Nat) (bs : List ChannelState × State) : List ChannelState × State :=
  let b := bs.2.inByte
  State.blockCode c (k + 1) (highNibble b) (State.blockCode c k (lowNibble b) (bs.1, bs.2.advance))

/-- `while InAvail() > 0`: the `n` bytes that are left (R100). -/
def State.blockRun (c : Nat) : Nat → Nat → List ChannelState × State → List ChannelState × State
  | 0, _, bs => bs
  | n + 1, k, bs => State.blockRun c n (k + 2) (State.blockByte c k bs)

/-! ### The host's actions (70_reset_and_hazards.md R186) -/

/-- `.reset`: every piece of state takes its value of 10_state.md R34 and the straps are sampled (R180; log 4). What the host holds
(its program, the responses, what it drained) is untouched (log 2). -/
def State.applyReset (s : State) (straps : Straps) : State :=
  { s with straps := straps, ch := resetChannels straps, inCur := 0, inBuf := [], inLen := 0, out := [] }

/-- The longest input buffer, `2^32 - 1` bytes (10_state.md R26). -/
def maxInputLength : Nat := 2 ^ 32 - 1

/-- `.input`: `IN <- bytes`, `IN_LEN <- count`, `in_cur` unchanged (R186). -/
def State.loadInput (s : State) (bytes : List Byte) : State :=
  { s with inBuf := Memory.ofBytes 0 bytes, inLen := BitVec.ofNat 32 bytes.length }

/-- `.drain`: all entries leave `OUT`; the host keeps them (R185, R186). -/
def State.drainOut (s : State) : State := { s with out := [], drained := s.drained ++ s.out }

/-- The host takes the `n` oldest entries off the front of `OUT` and keeps them (10_state.md R27; all of them when there are
no more than `n`, log 20). -/
def State.takeFront (s : State) (n : Nat) : State :=
  { s with out := s.out.drop n, drained := s.drained ++ s.out.take n }

/-- The host's program without its first action. -/
def State.withPending (s : State) (rest : List HostAction) : State := { s with pending := rest }

end Sys2Proof.Machine
end

