-- ==== Sys2Proof/Machine/Block.lean ====
section
/-! DEFINITION. The block decoder (42_block_decoder.md). -/

namespace Sys2Proof.Machine

/-- BLOCK_DECODE `c` (R100, R107, R108): `c` preambles, then every byte up to the end of `IN`. The scratch file is a local
value, dead when the command responds (10_state.md R30; log 11). `CH` is not touched. -/
def execBlockDecode (c : Nat) (s : State) : Result :=
  if c = 0 ∨ s.straps.nch < c then s.raise .illegalCommand
  else if s.inAvail < 4 * c then .fault .stuckShortInput
  else
    let bs := State.blockPreambles c s
    (State.blockRun c bs.2.inAvail 0 bs).2.finish

end Sys2Proof.Machine
end

