-- ==== Sys2Proof/Machine/Encoder.lean ====
section
/-! DEFINITION. The encoder placeholder (44_encoder_stub.md). -/

namespace Sys2Proof.Machine

/-- ENCODE: "raise NotImplemented", always (R140). -/
def execEncode (s : State) : Result := s.raise .notImplemented

end Sys2Proof.Machine
end

