-- ==== Sys2Proof/Machine/Streaming.lean ====
section
/-! DEFINITION. The streaming decoder commands (43_streaming.md). The `RSV` check of R110 is made by `decode`. -/

namespace Sys2Proof.Machine

/-- SEED `c, pred, idx` (R114): consumes no bytes. -/
def execSeed (c : Nat) (pred idx : Int) (s : State) : Result :=
  s.onChannel c (s.writeCh c (installPreamble s.straps pred idx)).finish

/-- SEED_BYTES (R115, R118). -/
def execSeedBytes (s : State) : Result :=
  if s.inAvail < 4 * s.straps.nch then .fault .stuckShortInput
  else (State.seedRun s.straps.nch 0 s).finish

/-- PARSE `c, n` (R116, R118). -/
def execParse (c n : Nat) (s : State) : Result :=
  s.onChannel c (if s.inAvail < n then .fault .stuckShortInput else (State.decodeRun true c n s).finish)

/-- PARSE_BLOCKS `c, k` (R120, R121): `m` whole groups of 4 bytes. -/
def execParseBlocks (c k : Nat) (s : State) : Result :=
  let full := s.inAvail / 4
  s.onChannel c
    (if full < k ∧ s.inAvail % 4 ≠ 0 then .fault .stuckPartialGroup
     else (State.decodeRun true c (4 * min k full) s).finish)

/-- SKIP `c, n` (R122, R123, R118). -/
def execSkip (c n : Nat) (s : State) : Result :=
  s.onChannel c (if s.inAvail < n then .fault .stuckShortInput else (State.decodeRun false c n s).finish)

/-- GET_STATE `c` (R125): answers the snapshot word and writes nothing. -/
def execGetState (c : Nat) (s : State) : Result :=
  s.onChannel c (.next (s.respond .ok (s.readCh c).snapshot))

/-- SET_STATE `c, {idx, pred}` (R126): a value copy, no clamp; an impossible index is refused (R127). -/
def execSetState (c : Nat) (pred : Int) (idx : Nat) (s : State) : Result :=
  s.onChannel c
    (if 88 < idx then .refused .impossibleSnapshot
     else (s.writeCh c ⟨BitVec.ofInt 16 pred, BitVec.ofNat 7 idx⟩).finish)

/-- SEEK `pos` (R130): no channel check. -/
def execSeek (pos : Nat) (s : State) : Result := (s.setCursor pos).finish

end Sys2Proof.Machine
end

