-- ==== Sys2Proof/Machine/Dispatch.lean ====
section
/-! DEFINITION. One arm per command. -/

namespace Sys2Proof.Machine

def exec (i : Instr) (s : State) : Host.Outcome State Fault Refusal :=
  match i with
  | .seed ch pred idx => Sys2Proof.Machine.execSeed ch pred idx s
  | .seedBytes => Sys2Proof.Machine.execSeedBytes s
  | .parse ch n => Sys2Proof.Machine.execParse ch n s
  | .parseBlocks ch k => Sys2Proof.Machine.execParseBlocks ch k s
  | .skip ch n => Sys2Proof.Machine.execSkip ch n s
  | .getState ch => Sys2Proof.Machine.execGetState ch s
  | .setState ch pred idx => Sys2Proof.Machine.execSetState ch pred idx s
  | .blockDecode c => Sys2Proof.Machine.execBlockDecode c s
  | .encodeStub => Sys2Proof.Machine.execEncode s
  | .seek pos => Sys2Proof.Machine.execSeek pos s

end Sys2Proof.Machine
end

