-- ==== Sys2Proof/Machine/HostSide.lean ====
section
/-! DEFINITION. What one host action does (70_reset_and_hazards.md R186, 10_state.md R27), and how a command word reaches the core. -/

namespace Sys2Proof.Machine

/-- The core takes one command word: it executes the command it spells, or answers `ILLEGAL_COMMAND` and changes nothing
when it spells none (30_encoding.md R69, 60_exceptions.md R163; log 10). -/
def issueCommand (cmd : Command) (s : State) : Result :=
  match Sys2Proof.decode cmd with
  | .ok i => exec i s
  | .error _ => s.raise .illegalCommand

/-- One host action on a state from whose program it has been taken. -/
def performAction (a : HostAction) (s : State) : Result :=
  match a with
  | .reset straps => .next (s.applyReset straps)
  | .loadInput bytes => if maxInputLength < bytes.length then .refused .inputTooLong else .next (s.loadInput bytes)
  | .issue cmd => issueCommand cmd s
  | .readOutput => .next s
  | .drain => .next s.drainOut
  | .takeFront n => .next (s.takeFront n)

/-- The state in which the host is about to send the command word `cmd`, before the rest of its program. -/
def State.issueNext (s : State) (cmd : Command) : State := s.withPending (.issue cmd :: s.pending)

end Sys2Proof.Machine
end

