-- ==== Sys2Proof/Machine/Step.lean ====
section
/-! DEFINITION. The step: the next action of the host's program. "the core executes commands one at a time, each to its
outcome, in the order the host issues them" (20_memory.md R52). -/

namespace Sys2Proof.Machine

/-- One step performs the first pending host action. With none left the core waits, which "has no architectural effect and
all state survives it" (60_exceptions.md R176; log 1). -/
def step (s : State) : Host.Outcome State Fault Refusal :=
  match s.pending with
  | [] => .next s
  | a :: rest => performAction a (s.withPending rest)

/-- `s` with the table word `w` as the command the host sends next, so that the very next step runs it (log 16). -/
def State.withFetchWord (s : State) (nbits w : Nat) : State := s.issueNext (BitVec.ofNat 64 (w % 2 ^ nbits))

end Sys2Proof.Machine
end

