-- ==== Sys2Proof/Machine/Flags.lean ====
section
/-! DEFINITION. The block has no flags and no condition codes (10_state.md R31): nothing is latched. What a command
reports is its response (30_encoding.md R64, R65), an output and not a register. -/

namespace Sys2Proof.Machine

/-- The `STATUS` numbers (R65). -/
def Status.code : Status → BitVec 8
  | .ok => 0
  | .invalidChannel => 1
  | .notImplemented => 2
  | .illegalCommand => 3

/-- The response word `RSP64`, `{status[7:0], 0[23:0], val[31:0]}` (R64). -/
def Response.word (r : Response) : BitVec 64 := r.status.code ++ (0 : BitVec 24) ++ r.val

end Sys2Proof.Machine
end

