-- ==== Sys2Proof/Safety.lean ====
section
/-! DEFINITION. What claims are stated in: the invariant of every reachable state (10_state.md R35), when a run is over
(70_reset_and_hazards.md R185), and the decode of a list of bytes or codes, apart from any cursor, buffer or sink. -/

namespace Sys2Proof.Machine

/-- The invariant of every reachable state (R35), with the form of the model's own data. R35 (b) holds by the register's width. -/
structure State.Inv (s : State) : Prop where
  /-- `CH` has `NCH` entries (R20). -/
  channels : s.ch.length = s.straps.nch
  /-- R35 (a). -/
  indices : ∀ st ∈ s.ch, st.stepIndex.toNat ≤ 88
  /-- `IN` is in canonical form. -/
  buffer : Memory.wf s.inBuf = true
  /-- `IN` holds no byte at or beyond `IN_LEN` (R26). -/
  bounds : Memory.below s.inLen.toNat s.inBuf = true
  /-- R35 (d) and (e): the samples lie in the variant's range and every tag names a channel. -/
  sink : ∀ e ∈ s.out, e.chan.toNat < s.straps.nch ∧ predictorFloor s.straps.variant ≤ e.sample.toInt
  /-- `VAL` is 0 whenever `STATUS` is not 0 (30_encoding.md R64). -/
  responses : ∀ r ∈ s.responses, r.status ≠ .ok → r.val = 0

/-- Whether a host action sends a command. -/
def HostAction.isCommand : HostAction → Bool
  | .reset _ => false
  | .loadInput _ => false
  | .issue _ => true
  | .readOutput => false
  | .drain => false
  | .takeFront _ => false

/-- "A run is over when the last command has responded" (R185): no command is left in the host's program, whatever other
actions are (log 21). -/
def State.runOver (s : State) : Bool := !s.pending.any HostAction.isCommand

/-- A run's result (R185). -/
structure RunResult where
  /-- "the list of responses in order". -/
  responses : List Response
  /-- "the final `OUT` (with what was drained on the way)". -/
  output : List OutEntry
  /-- "the final `CH`". -/
  ch : List ChannelState
  /-- The final `in_cur`. -/
  inCur : Word
  deriving DecidableEq, Repr

/-- The result a run has if it is over in this state (R185). -/
def State.resultNow (s : State) : RunResult := ⟨s.responses, s.drained ++ s.out, s.ch, s.inCur⟩

/-- At most `n` steps, up to the first state in which the run is over; none when a step is stuck or refused before. -/
def runToEnd (n : Nat) (s : State) : Option State :=
  if s.runOver then some s
  else
    match n with
    | 0 => none
    | n + 1 =>
      match step s with
      | .next t => runToEnd n t
      | .fault _ => none
      | .refused _ => none

/-- The result of the run of the host's whole program; none when "a command is stuck or refused": such a run "is never over
and has no result" (R185). A step uses up one action, so the program's length is steps enough. -/
def State.result? (s : State) : Option RunResult := (runToEnd s.pending.length s).map State.resultNow

/-- The next state of an outcome, if it is one. -/
def nextState? : Host.Outcome State Fault Refusal → Option State
  | .next t => some t
  | .fault _ => none
  | .refused _ => none

/-- A sequence of commands executed one after another, each from the state the one before left (20_memory.md R52). -/
def runCommands : List Instr → State → Option State
  | [], s => some s
  | i :: rest, s =>
    match exec i s with
    | .next t => runCommands rest t
    | .fault _ => none
    | .refused _ => none

/-- A part of a stream on channel `c`: `n` bytes parsed, or `n` bytes skipped (45_laws.md R147). -/
def streamPart (c : Nat) (part : Bool × Nat) : Instr := if part.1 then .parse c part.2 else .skip c part.2

/-- How many bytes a list of parts covers. -/
def partsLength : List (Bool × Nat) → Nat
  | [] => 0
  | part :: rest => part.2 + partsLength rest

/-- The entries that are left of a whole stream's when those of the skipped parts are missing (45_laws.md R147 (b)). -/
def keepParsed : List (Bool × Nat) → List OutEntry → List OutEntry
  | [], _ => []
  | part :: rest, es =>
    (if part.1 then es.take (2 * part.2) else []) ++ keepParsed rest (es.drop (2 * part.2))

/-- The unread bytes `IN[in_cur]` to `IN[in_cur+n-1]`. -/
def State.upcoming (s : State) (n : Nat) : List Byte := Memory.bytesAt s.inBuf s.inCur.toNat n

/-- A list of bytes decoded for one channel: the state left and the samples in decode order (43_streaming.md R116, R117). -/
def decodeBytes (p : Straps) : ChannelState → List Byte → ChannelState × List Sample
  | st, [] => (st, [])
  | st, b :: rest =>
    let r := decodeByte p st b
    let q := decodeBytes p r.1 rest
    (q.1, r.2.1 :: r.2.2 :: q.2)

/-- A list of codes decoded for one channel (41_sample_decode.md R90, R92). -/
def decodeCodes (v : Variant) : ChannelState → List Code → List Sample
  | _, [] => []
  | st, s :: rest => (decodeSample v st s).2 :: decodeCodes v (decodeSample v st s).1 rest

/-- Samples as sink entries tagged with channel `c` (10_state.md R27). -/
def tagSamples (c : Nat) (xs : List Sample) : List OutEntry := xs.map (fun x => ⟨BitVec.ofNat 8 c, x⟩)

/-- The codes of a run of bytes in the block decoder's order, low nibble first (42_block_decoder.md R103). -/
def blockCodes : List Byte → List Code
  | [] => []
  | b :: rest => lowNibble b :: highNibble b :: blockCodes rest

/-- Codes numbered from `k` on, decoded round-robin over the scratch file `bs` of `c` channels (42_block_decoder.md R102). -/
def decodeRoundRobin (v : Variant) (c : Nat) : Nat → List ChannelState → List Code → List OutEntry
  | _, _, [] => []
  | k, bs, s :: rest =>
    let r := decodeSample v (bs.getD (k % c) ChannelState.zero) s
    ⟨BitVec.ofNat 8 (k % c), r.2⟩ :: decodeRoundRobin v c (k + 1) (bs.set (k % c) r.1) rest

/-- The codes whose number is `j` modulo `c`, when the first one of the list has number `k`. -/
def codesOfChannel (c j : Nat) : Nat → List Code → List Code
  | _, [] => []
  | k, s :: rest => if k % c = j then s :: codesOfChannel c j (k + 1) rest else codesOfChannel c j (k + 1) rest

/-- The preamble whose first byte has index `a` (30_encoding.md R66). -/
def preambleAt (p : Straps) (m : List Host.Cell) (a : Nat) : ChannelState :=
  installPreamble p (le16 (Memory.read m a) (Memory.read m (a + 1))).toInt
    (le16 (Memory.read m (a + 2)) (Memory.read m (a + 3))).toInt

/-- `n` consecutive preambles from index `a` on, channel 0 first (30_encoding.md R66, 42_block_decoder.md R101). -/
def preamblesAt (p : Straps) (m : List Host.Cell) (a : Nat) : Nat → List ChannelState
  | 0 => []
  | n + 1 => preambleAt p m a :: preamblesAt p m (a + 4) n

/-- The bits of a command word that are not ignored: `OP`, `RSV`, and the fields R61 and R62 give the command
(30_encoding.md). -/
def usedBits : Instr → Command
  | .seed _ _ _ => 0xFFFFFFFFFFFFFFFF
  | .seedBytes => 0xFF00FFFF00000000
  | .parse _ _ => 0xFFFFFFFFFFFFFFFF
  | .parseBlocks _ _ => 0xFFFFFFFFFFFFFFFF
  | .skip _ _ => 0xFFFFFFFFFFFFFFFF
  | .getState _ => 0xFFFFFFFF00000000
  | .setState _ _ _ => 0xFFFFFFFFFFFFFFFF
  | .blockDecode _ => 0xFF00FFFFFFFFFFFF
  | .encodeStub => 0xFF00FFFF00000000
  | .seek _ => 0xFF00FFFFFFFFFFFF

end Sys2Proof.Machine
end

