-- ==== Sys2Proof/Certificates/Slice0/Obligations.lean ====
section
/-! DEFINITION. The statements for the provers. Each docstring names the rules of `spec/` it states. -/

open Sys2Proof Sys2Proof.Machine

/-! ### Encoding (30_encoding.md) -/

/-- R60, R62, R63, R72: decoding the encoder's word of any well-formed command gives the command back. -/
def Obligations.DecodeEncodeRoundTrip : Prop :=
  ∀ i : Instr, i.wellFormed = true → decode (encode i) = .ok i

/-- R60, R62, R63: for a word with `RSV = 0`, each opcode's command with its operands assembled from the fields; a field the
command does not use is ignored. -/
def Obligations.CommandOperandsFromFields : Prop :=
  ∀ w : Command, w.extractLsb' 32 16 = 0#16 →
    let op := w.extractLsb' 56 8
    let ch := (w.extractLsb' 48 8).toNat
    let low := w.extractLsb' 0 16
    let high := w.extractLsb' 16 16
    let arg := (w.extractLsb' 0 32).toNat
    (op = 0x01#8 → decode w = .ok (.seed ch low.toInt high.toInt)) ∧ (op = 0x02#8 → decode w = .ok .seedBytes) ∧
    (op = 0x03#8 → decode w = .ok (.parse ch arg)) ∧ (op = 0x04#8 → decode w = .ok (.parseBlocks ch arg)) ∧
    (op = 0x05#8 → decode w = .ok (.skip ch arg)) ∧ (op = 0x06#8 → decode w = .ok (.getState ch)) ∧
    (op = 0x07#8 → decode w = .ok (.setState ch low.toInt high.toNat)) ∧
    (op = 0x08#8 → decode w = .ok (.blockDecode arg)) ∧ (op = 0x09#8 → decode w = .ok .encodeStub) ∧
    (op = 0x0A#8 → decode w = .ok (.seek arg))

/-- R60, R62: every decoded command has operands in its fields' ranges. -/
def Obligations.DecodedCommandIsWellFormed : Prop :=
  ∀ (w : Command) (i : Instr), decode w = .ok i → i.wellFormed = true

/-- R61, R62, R72: encoding a decoded command gives the word with its ignored fields cleared, so no used bit is lost. -/
def Obligations.EncodeDecodeClearsIgnoredFields : Prop :=
  ∀ (w : Command) (i : Instr), decode w = .ok i → encode i = w &&& usedBits i

/-- R63: for each of the ten rows, a word spells the row's command exactly when `cmd AND mask = match`. -/
def Obligations.CommandFollowsMatchAndMask : Prop :=
  ∀ (w : Command) (op : BitVec 8), 0x01#8 ≤ op → op ≤ 0x0A#8 →
    (w &&& 0xFF00FFFF00000000#64 = op.setWidth 64 <<< 56 ↔ ∃ i, decode w = .ok i ∧ i.opcode = op)

/-- R69: the words that spell no command are those with `RSV` not zero or with `OP` 0x00 or 0x0B to 0xFF, and no others. -/
def Obligations.DecoderRejectsExactlyTheReservedWords : Prop :=
  ∀ w : Command, (∃ e, decode w = .error e) ↔
    (w.extractLsb' 32 16 ≠ 0#16 ∨ w.extractLsb' 56 8 = 0#8 ∨ 0x0B#8 ≤ w.extractLsb' 56 8)

/-- R63, R72, 95_test_vectors.md V-E, V-S5, V-S10: words written out from the spec decode to the commands they stand for. -/
def Obligations.SpecWordsDecode : Prop :=
  decode 0x0101000000140064 = .ok (.seed 1 100 20) ∧
  decode 0x010000000064FFF6 = .ok (.seed 0 (-10) 100) ∧
  decode 0x0200000000000000 = .ok .seedBytes ∧
  decode 0x0301000000000003 = .ok (.parse 1 3) ∧
  decode 0x0400000000000002 = .ok (.parseBlocks 0 2) ∧
  decode 0x0500000000000001 = .ok (.skip 0 1) ∧
  decode 0x0601000000000000 = .ok (.getState 1) ∧
  decode 0x070000000007FFF7 = .ok (.setState 0 (-9) 7) ∧
  decode 0x0800000000000002 = .ok (.blockDecode 2) ∧
  decode 0x09FF0000FFFFFFFF = .ok .encodeStub ∧
  decode 0x0A00000000000001 = .ok (.seek 1)

/-- R64, R65: the three fields of a response word. -/
def Obligations.ResponseWordFields : Prop :=
  ∀ r : Response,
    (r.word.extractLsb' 56 8).toNat =
      (match r.status with | .ok => 0 | .invalidChannel => 1 | .notImplemented => 2 | .illegalCommand => 3) ∧
    r.word.extractLsb' 32 24 = 0#24 ∧ r.word.extractLsb' 0 32 = r.val

/-! ### The step and the host (70_reset_and_hazards.md) -/

/-- A step in which the host issues a word that decodes to a command is that command's execution, on the state whose
program has moved past the issue (20_memory.md R52; the program list is the model's, log 1). -/
def Obligations.StepExecutesIssuedCommand : Prop :=
  ∀ (s : State) (w : Command) (rest : List HostAction) (i : Instr), s.pending = .issue w :: rest → decode w = .ok i →
    step s = exec i { s with pending := rest }

/-- R69: a word with `RSV` not zero, or `OP` 0x00 or 0x0B to 0xFF: the core answers `respond(3, 0)`, writes no state, reads no
input and appends nothing. (The program list is the model's, log 1; that the run goes on with an answer, log 10.) -/
def Obligations.ReservedWordAnswersIllegalCommand : Prop :=
  ∀ (s : State) (w : Command) (rest : List HostAction), s.pending = .issue w :: rest →
    (w.extractLsb' 32 16 ≠ 0#16 ∨ w.extractLsb' 56 8 = 0#8 ∨ 0x0B#8 ≤ w.extractLsb' 56 8) →
    step s = .next { s with pending := rest, responses := s.responses ++ [⟨.illegalCommand, 0⟩] }

/-- R176: with nothing left to do for the host, the core waits and all state survives. (That an empty program is the waiting
core, and that a step exists there, is the model's choice, log 1.) -/
def Obligations.WaitingChangesNothing : Prop :=
  ∀ s : State, s.pending = [] → step s = .next s

/-- R34: every channel state, the cursor, the input buffer and the sink right after reset. -/
def Obligations.ResetStateValues : Prop :=
  (∀ c < State.reset.straps.nch, State.reset.ch[c]? = some ⟨0, 0⟩) ∧ State.reset.ch.length = State.reset.straps.nch ∧
  State.reset.inCur = 0 ∧ State.reset.inLen = 0 ∧ State.reset.inBuf = [] ∧ State.reset.out = []

/-- R34, R180: the host's reset action gives the same values from any state. That the straps are those the action carries,
and that the host's own records survive it, is the model's choice (log 4, log 2). -/
def Obligations.ResetActionValues : Prop :=
  ∀ (s : State) (p : Straps) (rest : List HostAction), s.pending = .reset p :: rest →
    step s = .next
      { straps := p, ch := List.replicate p.nch ⟨0, 0⟩, inCur := 0, inBuf := [], inLen := 0, out := [],
        pending := rest, responses := s.responses, drained := s.drained }

/-- R186 (load input), R26: the loaded bytes are read back, `IN_LEN` is their count, `in_cur`, `CH` and `OUT` are unchanged;
more bytes than a buffer holds are refused (log 13). -/
def Obligations.LoadedInputReadsBack : Prop :=
  ∀ (s : State) (bytes : List Byte) (rest : List HostAction), s.pending = .loadInput bytes :: rest →
    (bytes.length ≤ 2 ^ 32 - 1 →
      ∃ t, step s = .next t ∧ t.inLen.toNat = bytes.length ∧
        (∀ i (h : i < bytes.length), Memory.read t.inBuf i = bytes[i]) ∧
        Memory.wf t.inBuf = true ∧
        t = { s with inBuf := t.inBuf, inLen := t.inLen, pending := rest }) ∧
    (2 ^ 32 - 1 < bytes.length → step s = .refused .inputTooLong)

/-- R186 (read output, drain output), R27: reading changes nothing; draining empties `OUT`, taking from the front removes its `n`
oldest entries, and neither changes anything else of the block. (Where the removed entries are kept is the model's choice,
log 2; that fewer than `n` entries are all removed, log 20.) -/
def Obligations.HostReadsAndDrainsOutput : Prop :=
  ∀ (s : State) (rest : List HostAction),
    (s.pending = .readOutput :: rest → step s = .next { s with pending := rest }) ∧
    (s.pending = .drain :: rest →
      step s = .next { s with out := [], drained := s.drained ++ s.out, pending := rest }) ∧
    (∀ n, s.pending = .takeFront n :: rest →
      step s = .next { s with out := s.out.drop n, drained := s.drained ++ s.out.take n, pending := rest })

/-- R6, R29, R180: no command and no host action but a reset changes a strap (log 4 for the reset). -/
def Obligations.OnlyResetChangesStraps : Prop :=
  ∀ s t : State, step s = .next t →
    t.straps = s.straps ∨ ∃ p rest, s.pending = .reset p :: rest ∧ t.straps = p

/-- R64: a command that responds delivers exactly one response; no other host action delivers one. -/
def Obligations.OneResponsePerIssuedWord : Prop :=
  ∀ s t : State, step s = .next t →
    ((∃ w rest, s.pending = .issue w :: rest) → ∃ r, t.responses = s.responses ++ [r]) ∧
    ((∀ w rest, s.pending ≠ .issue w :: rest) → t.responses = s.responses)

/-- R35 (a), (b), (d), (e), with the canonical form of the input buffer: every step keeps the invariant. -/
def Obligations.StepKeepsInvariant : Prop :=
  ∀ s t : State, s.Inv → step s = .next t → t.Inv

/-- R35: the invariant holds right after reset. -/
def Obligations.ResetMeetsInvariant : Prop := State.reset.Inv

/-! ### Tables and clamps (40_tables_and_policy.md) -/

/-- R80: the sixteen entries of the step-index adjustment table, which depend on the magnitude bits only. -/
def Obligations.IndexTableEntries : Prop :=
  (∀ s : Code, indexAdjust s = [-1, -1, -1, -1, 2, 4, 6, 8, -1, -1, -1, -1, 2, 4, 6, 8].getD s.toNat 0) ∧
  (∀ s : Code, indexAdjust s = indexAdjust (s &&& 0b0111#4))

/-- R81, as far as the source fixes the table: 89 entries, ascending, 7 at index 0, 16 at index 8, 32767 at index 88. (The
other entries are from general knowledge, log 6.) -/
def Obligations.StepSizeTableShape : Prop :=
  stepSizeTable.length = 89 ∧ stepSizeTable.Pairwise (· < ·) ∧
  stepSize 0 = 7 ∧ stepSize 8 = 16 ∧ stepSize 88 = 32767

/-- R83. -/
def Obligations.StepIndexClamp : Prop :=
  ∀ i : Int, (i < 0 → clampStepIndex i = 0) ∧ (89 ≤ i → clampStepIndex i = 88) ∧
    (0 ≤ i → i < 89 → clampStepIndex i = i) ∧ clampStepIndex (clampStepIndex i) = clampStepIndex i

/-- R84, R85: the two ranges, and that the variants differ exactly on `p <= -32768`. -/
def Obligations.PredictorClamp : Prop :=
  ∀ p : Int,
    (clampPredictor .ima p = if p < -32768 then -32768 else if 32767 < p then 32767 else p) ∧
    (clampPredictor .nds p = if p < -32767 then -32767 else if 32767 < p then 32767 else p) ∧
    (clampPredictor .ima p ≠ clampPredictor .nds p ↔ p ≤ -32768)

/-! ### The sample decode (41_sample_decode.md) -/

/-- R90, R91: the six steps, with the step size read from the table and each shift truncating on its own. -/
def Obligations.DecodeSampleResult : Prop :=
  ∀ (v : Variant) (st : ChannelState) (s : Code) (h : st.stepIndex.toNat < stepSizeTable.length),
    let step := stepSizeTable[st.stepIndex.toNat]
    let diff := step / 8 + (if s.getLsbD 0 = true then step / 4 else 0) + (if s.getLsbD 1 = true then step / 2 else 0) +
      (if s.getLsbD 2 = true then step else 0)
    let r := decodeSample v st s
    r.1.predictor.toInt =
      clampPredictor v (if s.getLsbD 3 = true then st.predictor.toInt - diff else st.predictor.toInt + diff) ∧
    (r.1.stepIndex.toNat : Int) = clampStepIndex (st.stepIndex.toNat + indexAdjust s) ∧
    r.2 = r.1.predictor

/-- R93: postconditions of every sample decode. -/
def Obligations.DecodeSamplePostconditions : Prop :=
  ∀ (v : Variant) (st : ChannelState) (s : Code),
    let r := decodeSample v st s
    r.1.stepIndex.toNat ≤ 88 ∧
    clampPredictor v r.1.predictor.toInt = r.1.predictor.toInt ∧
    (match v with | .ima => -32768 ≤ r.1.predictor.toInt | .nds => -32767 ≤ r.1.predictor.toInt) ∧
    r.1.predictor.toInt ≤ 32767 ∧ r.2 = r.1.predictor

/-- R96: the ranges of the working values (they rest on the table, log 6). -/
def Obligations.WorkingValuesFit : Prop :=
  ∀ (st : ChannelState) (s : Code), st.stepIndex.toNat ≤ 88 →
    let diff := sampleDiff (stepSize st.stepIndex) s
    7 ≤ stepSize st.stepIndex ∧ stepSize st.stepIndex ≤ 32767 ∧ diff ≤ 61436 ∧
    -94204 ≤ st.predictor.toInt - diff ∧ st.predictor.toInt + diff ≤ 94203 ∧
    -1 ≤ (st.stepIndex.toNat : Int) + indexAdjust s ∧ (st.stepIndex.toNat : Int) + indexAdjust s ≤ 96

/-- R112: the two codes of a byte in decode order under each nibble order (HIGH_FIRST: log 14). -/
def Obligations.NibbleOrderOfByte : Prop :=
  ∀ b : Byte,
    (nibbles .lowFirst b).1.toNat = b.toNat % 16 ∧ (nibbles .lowFirst b).2.toNat = b.toNat / 16 ∧
    (nibbles .highFirst b).1.toNat = b.toNat / 16 ∧ (nibbles .highFirst b).2.toNat = b.toNat % 16

/-- R113: what a preamble installs. -/
def Obligations.PreambleInstallsClampedState : Prop :=
  ∀ (p : Straps) (pred idx : Int), -32768 ≤ pred → pred ≤ 32767 →
    (installPreamble p pred idx).predictor.toInt =
      (if p.preamblePredClamp = true then clampPredictor p.variant pred else pred) ∧
    ((installPreamble p pred idx).stepIndex.toNat : Int) = clampStepIndex idx

/-! ### The commands (43_streaming.md, 42_block_decoder.md, 44_encoder_stub.md) -/

/-- R114, with R111 for `CH >= NCH`: SEED writes `CH[ch]` and nothing else, and answers the unchanged cursor. -/
def Obligations.SeedInstallsPreamble : Prop :=
  ∀ (s : State) (c : Nat) (pred idx : Int),
    (c < s.straps.nch →
      exec (.seed c pred idx) s = .next
        { s with ch := s.ch.set c (installPreamble s.straps pred idx), responses := s.responses ++ [⟨.ok, s.inCur⟩] }) ∧
    (s.straps.nch ≤ c →
      exec (.seed c pred idx) s = .next { s with responses := s.responses ++ [⟨.invalidChannel, 0⟩] })

/-- R115, R118: SEED_BYTES seeds every channel from consecutive preamble words at the cursor and answers the cursor past them;
with fewer than `4 * NCH` bytes left it is stuck. -/
def Obligations.SeedBytesSeedsEveryChannel : Prop :=
  ∀ s : State, s.Inv →
    (4 * s.straps.nch ≤ s.inAvail →
      ∃ t, exec .seedBytes s = .next t ∧ t.ch.length = s.straps.nch ∧
        (∀ c < s.straps.nch, t.readCh c =
          installPreamble s.straps
            (Memory.read s.inBuf (s.inCur.toNat + 4 * c + 1) ++ Memory.read s.inBuf (s.inCur.toNat + 4 * c)).toInt
            (Memory.read s.inBuf (s.inCur.toNat + 4 * c + 3) ++ Memory.read s.inBuf (s.inCur.toNat + 4 * c + 2)).toInt) ∧
        t.inCur.toNat = s.inCur.toNat + 4 * s.straps.nch ∧
        t = { s with ch := t.ch, inCur := t.inCur, responses := s.responses ++ [⟨.ok, t.inCur⟩] }) ∧
    (s.inAvail < 4 * s.straps.nch → exec .seedBytes s = .fault .stuckShortInput)

/-- R116, R118, R111: PARSE decodes exactly `2n` samples from the `n` bytes at the cursor for `CH[ch]`, appends them tagged
`ch`, and answers the cursor advanced by `n`; nothing else moves. -/
def Obligations.ParseDecodesBytes : Prop :=
  ∀ (s : State) (c n : Nat), s.Inv →
    (c < s.straps.nch → n ≤ s.inAvail →
      let r := decodeBytes s.straps (s.readCh c) (s.upcoming n)
      let cur := s.inCur + BitVec.ofNat 32 n
      exec (.parse c n) s = .next
        { s with ch := s.ch.set c r.1, inCur := cur, out := s.out ++ tagSamples c r.2,
                 responses := s.responses ++ [⟨.ok, cur⟩] } ∧
      cur.toNat = s.inCur.toNat + n ∧ r.2.length = 2 * n) ∧
    (c < s.straps.nch → s.inAvail < n → exec (.parse c n) s = .fault .stuckShortInput) ∧
    (s.straps.nch ≤ c → exec (.parse c n) s = .next { s with responses := s.responses ++ [⟨.invalidChannel, 0⟩] })

/-- R122, R118, R111: SKIP runs the same state transitions and discards the samples. -/
def Obligations.SkipDecodesAndDiscards : Prop :=
  ∀ (s : State) (c n : Nat), s.Inv →
    (c < s.straps.nch → n ≤ s.inAvail →
      let cur := s.inCur + BitVec.ofNat 32 n
      exec (.skip c n) s = .next
        { s with ch := s.ch.set c (decodeBytes s.straps (s.readCh c) (s.upcoming n)).1, inCur := cur,
                 responses := s.responses ++ [⟨.ok, cur⟩] } ∧
      cur.toNat = s.inCur.toNat + n) ∧
    (c < s.straps.nch → s.inAvail < n → exec (.skip c n) s = .fault .stuckShortInput) ∧
    (s.straps.nch ≤ c → exec (.skip c n) s = .next { s with responses := s.responses ++ [⟨.invalidChannel, 0⟩] })

/-- R120, R121, R111: PARSE_BLOCKS decodes `m = min(k, full)` groups of 4 bytes, stops early on a group boundary, and is
stuck when it would meet a group of 1 to 3 bytes. -/
def Obligations.ParseBlocksDecodesWholeGroups : Prop :=
  ∀ (s : State) (c k : Nat), s.Inv →
    (c < s.straps.nch → k ≤ s.inAvail / 4 ∨ s.inAvail % 4 = 0 →
      let n := 4 * min k (s.inAvail / 4)
      let r := decodeBytes s.straps (s.readCh c) (s.upcoming n)
      let cur := s.inCur + BitVec.ofNat 32 n
      exec (.parseBlocks c k) s = .next
        { s with ch := s.ch.set c r.1, inCur := cur, out := s.out ++ tagSamples c r.2,
                 responses := s.responses ++ [⟨.ok, cur⟩] } ∧
      cur.toNat = s.inCur.toNat + n ∧ r.2.length = 2 * n) ∧
    (c < s.straps.nch → s.inAvail / 4 < k → s.inAvail % 4 ≠ 0 →
      exec (.parseBlocks c k) s = .fault .stuckPartialGroup) ∧
    (s.straps.nch ≤ c →
      exec (.parseBlocks c k) s = .next { s with responses := s.responses ++ [⟨.invalidChannel, 0⟩] })

/-- R125, R67, R111: GET_STATE answers the snapshot word of `CH[ch]` and writes no state. -/
def Obligations.GetStateAnswersSnapshot : Prop :=
  ∀ (s : State) (c : Nat),
    (c < s.straps.nch →
      ∃ snap : Word,
        exec (.getState c) s = .next { s with responses := s.responses ++ [⟨.ok, snap⟩] } ∧
        snap.extractLsb' 0 16 = (s.readCh c).predictor ∧
        (snap.extractLsb' 16 16).toNat = (s.readCh c).stepIndex.toNat) ∧
    (s.straps.nch ≤ c → exec (.getState c) s = .next { s with responses := s.responses ++ [⟨.invalidChannel, 0⟩] })

/-- R126, R127, R111: SET_STATE installs the operand pair as it is, moves no cursor, and is refused when the index field is
above 88; an invalid channel is reported first (R167). -/
def Obligations.SetStateCopiesOrRefuses : Prop :=
  ∀ (s : State) (c : Nat) (pred : Int) (idx : Nat), s.Inv → -32768 ≤ pred → pred ≤ 32767 →
    (c < s.straps.nch → idx ≤ 88 →
      ∃ st : ChannelState, st.predictor.toInt = pred ∧ st.stepIndex.toNat = idx ∧
        exec (.setState c pred idx) s = .next
          { s with ch := s.ch.set c st, responses := s.responses ++ [⟨.ok, s.inCur⟩] }) ∧
    (c < s.straps.nch → 88 < idx → exec (.setState c pred idx) s = .refused .impossibleSnapshot) ∧
    (s.straps.nch ≤ c →
      exec (.setState c pred idx) s = .next { s with responses := s.responses ++ [⟨.invalidChannel, 0⟩] })

/-- R130: SEEK sets the cursor to any 32-bit value and answers it; nothing else changes. -/
def Obligations.SeekSetsCursor : Prop :=
  ∀ (s : State) (pos : Nat), pos < 2 ^ 32 →
    ∃ cur : Word, cur.toNat = pos ∧
      exec (.seek pos) s = .next { s with inCur := cur, responses := s.responses ++ [⟨.ok, cur⟩] }

/-- R140: ENCODE fails with NotImplemented on every execution, response word 0x02000000_00000000, and changes nothing. -/
def Obligations.EncodeAlwaysFails : Prop :=
  ∀ s : State,
    exec .encodeStub s = .next { s with responses := s.responses ++ [⟨.notImplemented, 0⟩] } ∧
    (Response.mk .notImplemented 0).word = 0x0200000000000000#64

/-- R100, R101, R107, R108: BLOCK_DECODE installs `C` preambles in its scratch file, decodes every byte up to the end of `IN`
round-robin, and answers `IN_LEN`; a bad count is an illegal command, a short buffer is stuck. -/
def Obligations.BlockDecodeResult : Prop :=
  ∀ (s : State) (c : Nat),
    (1 ≤ c → c ≤ s.straps.nch → 4 * c ≤ s.inAvail →
      let body := Memory.bytesAt s.inBuf (s.inCur.toNat + 4 * c) (s.inAvail - 4 * c)
      let scratch := preamblesAt s.straps s.inBuf s.inCur.toNat c
      exec (.blockDecode c) s = .next
        { s with inCur := s.inLen, out := s.out ++ decodeRoundRobin s.straps.variant c 0 scratch (blockCodes body),
                 responses := s.responses ++ [⟨.ok, s.inLen⟩] }) ∧
    (1 ≤ c → c ≤ s.straps.nch → s.inAvail < 4 * c → exec (.blockDecode c) s = .fault .stuckShortInput) ∧
    (c = 0 ∨ s.straps.nch < c →
      exec (.blockDecode c) s = .next { s with responses := s.responses ++ [⟨.illegalCommand, 0⟩] })

/-- R104, R102: the run BLOCK_DECODE appends has `2 * (L - 4C)` entries and entry `k` is tagged `k mod C`. -/
def Obligations.BlockDecodeTagsRoundRobin : Prop :=
  ∀ (s t : State) (c : Nat), 1 ≤ c → c ≤ s.straps.nch → exec (.blockDecode c) s = .next t →
    ∃ run, t.out = s.out ++ run ∧ run.length = 2 * (s.inAvail - 4 * c) ∧
      ∀ k (h : k < run.length), run[k].chan.toNat = k % c

/-- R102: each channel's samples are its own codes, `k mod C = j`, decoded in order from its own preamble state. -/
def Obligations.RoundRobinChannelsDecodeOwnCodes : Prop :=
  ∀ (v : Variant) (c j : Nat) (bs : List ChannelState) (codes : List Code), c ≤ 256 → j < c → bs.length = c →
    ((decodeRoundRobin v c 0 bs codes).filter (fun e => e.chan.toNat = j)).map OutEntry.sample =
      decodeCodes v (bs.getD j ChannelState.zero) (codesOfChannel c j 0 codes)

/-- R105: what BLOCK_DECODE appends depends only on the unread bytes, `C`, `VARIANT` and `PREAMBLE_PRED_CLAMP`; it leaves
`CH` as it was. Two states may differ in everything else. -/
def Obligations.BlockDecodeIsPure : Prop :=
  ∀ (s s' t : State) (c : Nat), 1 ≤ c → c ≤ s.straps.nch → c ≤ s'.straps.nch →
    s.straps.variant = s'.straps.variant → s.straps.preamblePredClamp = s'.straps.preamblePredClamp →
    s.inAvail = s'.inAvail →
    (∀ i < s.inAvail, Memory.read s.inBuf (s.inCur.toNat + i) = Memory.read s'.inBuf (s'.inCur.toNat + i)) →
    exec (.blockDecode c) s = .next t →
    ∃ t' run, exec (.blockDecode c) s' = .next t' ∧ t.out = s.out ++ run ∧ t'.out = s'.out ++ run ∧
      t.ch = s.ch ∧ t'.ch = s'.ch ∧ t.inCur = s.inLen ∧ t'.inCur = s'.inLen

/-! ### Rules over all commands (45_laws.md, 60_exceptions.md) -/

/-- R161, R167: a command that names a channel at or above `NCH` answers `INVALID_CHANNEL` and changes nothing, whatever the
input and the operands. -/
def Obligations.InvalidChannelReportedFirst : Prop :=
  ∀ (i : Instr) (c : Nat) (s : State), i.channel? = some c → s.straps.nch ≤ c →
    exec i s = .next { s with responses := s.responses ++ [⟨.invalidChannel, 0⟩] }

/-- R153: an error response changes nothing. -/
def Obligations.ErrorsChangeNothing : Prop :=
  ∀ (i : Instr) (s t : State) (r : Response), exec i s = .next t → t.responses = s.responses ++ [r] → r.status ≠ .ok →
    t = { s with responses := s.responses ++ [r] } ∧ r.val = 0

/-- The frame of every command: no strap, no byte of `IN` and nothing of the host's program or drained entries changes,
`OUT` only grows at its end, `CH` keeps its length, and one response is delivered (R6, R26, R27, R64). -/
def Obligations.CommandFrame : Prop :=
  ∀ (i : Instr) (s t : State), exec i s = .next t →
    t.straps = s.straps ∧ (∀ a, Memory.read t.inBuf a = Memory.read s.inBuf a) ∧ t.inLen = s.inLen ∧
    t.pending = s.pending ∧ t.drained = s.drained ∧ t.ch.length = s.ch.length ∧
    (∃ run, t.out = s.out ++ run) ∧ (∃ r, t.responses = s.responses ++ [r])

/-- R152: a command that names channel `a` leaves every other channel unchanged. -/
def Obligations.ChannelsAreIndependent : Prop :=
  ∀ (i : Instr) (s t : State) (a b : Nat), i.channel? = some a → exec i s = .next t → b ≠ a →
    t.readCh b = s.readCh b

/-- R24, R46: GET_STATE, BLOCK_DECODE, ENCODE and SEEK write no channel state; SEED, SEED_BYTES, SKIP, GET_STATE, SET_STATE,
ENCODE and SEEK append nothing; SEED, GET_STATE, SET_STATE and ENCODE do not move the cursor. -/
def Obligations.WhatCommandsLeaveAlone : Prop :=
  ∀ (i : Instr) (s t : State), exec i s = .next t →
    (i.opcode ∈ [0x06#8, 0x08#8, 0x09#8, 0x0A#8] → t.ch = s.ch) ∧
    (i.opcode ∈ [0x01#8, 0x02#8, 0x05#8, 0x06#8, 0x07#8, 0x09#8, 0x0A#8] → t.out = s.out) ∧
    (i.opcode ∈ [0x01#8, 0x06#8, 0x07#8, 0x09#8] → t.inCur = s.inCur)

/-- R25, R50: no command but SEEK moves the cursor backwards, and none moves it past the end of the buffer. -/
def Obligations.CursorMovesForwardInsideBuffer : Prop :=
  ∀ (i : Instr) (s t : State), s.Inv → exec i s = .next t → i.opcode ≠ 0x0A#8 →
    s.inCur.toNat ≤ t.inCur.toNat ∧ t.inCur.toNat ≤ max s.inCur.toNat s.inLen.toNat

/-- R165, R167: where commands stop, exactly: stuck on a shortage of input by a valid command, refused on an impossible snapshot,
and nowhere else. -/
def Obligations.CommandsStopExactlyWhere : Prop :=
  ∀ (i : Instr) (s : State),
    ((∃ f, exec i s = .fault f) ↔
      match i with
      | .seedBytes => s.inAvail < 4 * s.straps.nch
      | .parse c n => c < s.straps.nch ∧ s.inAvail < n
      | .parseBlocks c k => c < s.straps.nch ∧ s.inAvail / 4 < k ∧ s.inAvail % 4 ≠ 0
      | .skip c n => c < s.straps.nch ∧ s.inAvail < n
      | .blockDecode c => 1 ≤ c ∧ c ≤ s.straps.nch ∧ s.inAvail < 4 * c
      | _ => False) ∧
    ((∃ r, exec i s = .refused r) ↔
      match i with
      | .setState c _ idx => c < s.straps.nch ∧ 88 < idx
      | _ => False)

/-- R35 (c), for both variants: after PARSE or SKIP of at least one byte the predictor lies in the variant's range, and only
SEED, SEED_BYTES and SET_STATE can take a predictor out of it. -/
def Obligations.DecodedPredictorStaysInRange : Prop :=
  (∀ (s t : State) (c n : Nat), s.Inv → c < s.straps.nch → 0 < n →
    (exec (.parse c n) s = .next t ∨ exec (.skip c n) s = .next t) →
    predictorFloor s.straps.variant ≤ (t.readCh c).predictor.toInt) ∧
  (∀ (i : Instr) (s t : State) (c : Nat), i.opcode ∉ [0x01#8, 0x02#8, 0x07#8] → s.Inv → exec i s = .next t →
    predictorFloor s.straps.variant ≤ (s.readCh c).predictor.toInt →
    predictorFloor s.straps.variant ≤ (t.readCh c).predictor.toInt)

/-- R146: chunking invariance, from any state. -/
def Obligations.ParseChunkingInvariance : Prop :=
  ∀ (s : State) (c n p : Nat), s.Inv → c < s.straps.nch → p ≤ n → n ≤ s.inAvail →
    ∃ t₁ t₂ t, exec (.parse c p) s = .next t₁ ∧ exec (.parse c (n - p)) t₁ = .next t₂ ∧ exec (.parse c n) s = .next t ∧
      t₂.ch = t.ch ∧ t₂.inCur = t.inCur ∧ t₂.out = t.out

/-- R147: any sequence of PARSE and SKIP parts on one channel leaves the state of the single PARSE, and appends its samples
less those of the skipped parts. -/
def Obligations.StreamPartsAgreeWithOneParse : Prop :=
  ∀ (s : State) (c : Nat) (parts : List (Bool × Nat)), s.Inv → c < s.straps.nch → partsLength parts ≤ s.inAvail →
    ∃ t u run, runCommands (parts.map (streamPart c)) s = some t ∧ exec (.parse c (partsLength parts)) s = .next u ∧
      t.ch = u.ch ∧ t.inCur = u.inCur ∧ u.out = s.out ++ run ∧ t.out = s.out ++ keepParsed parts run

/-- R148: SKIP and PARSE of the same bytes give the same snapshot; the states differ in `OUT` only, by `2n` entries. -/
def Obligations.SkipAndParseLeaveSameState : Prop :=
  ∀ (s : State) (c n : Nat), s.Inv → c < s.straps.nch → n ≤ s.inAvail →
    ∃ t u t' u' snap run, exec (.skip c n) s = .next t ∧ exec (.parse c n) s = .next u ∧
      exec (.getState c) t = .next t' ∧ exec (.getState c) u = .next u' ∧
      t'.responses = t.responses ++ [⟨.ok, snap⟩] ∧ u'.responses = u.responses ++ [⟨.ok, snap⟩] ∧
      t.out = s.out ∧ u = { t with out := s.out ++ run } ∧ run.length = 2 * n

/-- R149: PARSE_BLOCKS against PARSE, with the blocks all there and with an early stop. -/
def Obligations.ParseBlocksIsParseOfWholeGroups : Prop :=
  ∀ (s : State) (c k : Nat), c < s.straps.nch →
    (4 * k ≤ s.inAvail → exec (.parseBlocks c k) s = exec (.parse c (4 * k)) s) ∧
    (s.inAvail % 4 = 0 → s.inAvail < 4 * k → exec (.parseBlocks c k) s = exec (.parse c s.inAvail) s)

/-- R150 (a), (b): a snapshot restored as a SET_STATE operand, into any valid channel and at any later state, is never refused
and gives the channel state it was taken from. -/
def Obligations.SnapshotRestoresChannelState : Prop :=
  ∀ (s u : State) (c d : Nat), s.Inv → u.Inv → c < s.straps.nch → d < u.straps.nch →
    ∃ snap i v, exec (.getState c) s = .next { s with responses := s.responses ++ [⟨.ok, snap⟩] } ∧
      decode (packCommand 0x07 (BitVec.ofNat 8 d) snap) = .ok i ∧ exec i u = .next v ∧ v.readCh d = s.readCh c

/-- R150 (c), R129: with `IN` unchanged, SEEK to the checkpoint and SET_STATE of its snapshot make a PARSE append the samples
it appended the first time and leave the same channel state and cursor. -/
def Obligations.LoopReentryRepeatsSamples : Prop :=
  ∀ (s t w : State) (c n : Nat), s.Inv → w.Inv → c < s.straps.nch → n ≤ s.inAvail →
    w.straps = s.straps → w.inBuf = s.inBuf → w.inLen = s.inLen → exec (.parse c n) s = .next t →
    ∃ w' run, runCommands [.seek s.inCur.toNat,
        .setState c (s.readCh c).predictor.toInt (s.readCh c).stepIndex.toNat, .parse c n] w = some w' ∧
      t.out = s.out ++ run ∧ w'.out = w.out ++ run ∧ w'.readCh c = t.readCh c ∧ w'.inCur = t.inCur

/-- R154, for one stream of bytes: the variants decode the same samples and states up to, and not including, the first sample the
IMA decode gives as -32768, and there the NDS decode gives -32767. -/
def Obligations.VariantsAgreeUntilFloor : Prop :=
  ∀ (p : Straps) (st : ChannelState) (bytes : List Byte), st.predictor.toInt ≠ -32768 →
    let ima := decodeBytes { p with variant := .ima } st bytes
    let nds := decodeBytes { p with variant := .nds } st bytes
    ((∀ x ∈ ima.2, x.toInt ≠ -32768) → nds = ima) ∧
    (∀ j (h : j < ima.2.length), (∀ x ∈ ima.2.take j, x.toInt ≠ -32768) → ima.2[j].toInt = -32768 →
      nds.2.take j = ima.2.take j ∧ nds.2[j]?.map BitVec.toInt = some (-32767))

/-- R155: with one channel and LOW_FIRST, BLOCK_DECODE 1 appends what SEED_BYTES followed by PARSE of the rest appends, and both
end with the cursor at `IN_LEN`. -/
def Obligations.BlockAgreesWithStreaming : Prop :=
  ∀ s : State, s.Inv → s.straps.nch = 1 → s.straps.nibbleOrder = .lowFirst → 4 ≤ s.inAvail →
    ∃ t u, runCommands [.seedBytes, .parse 0 (s.inLen.toNat - s.inCur.toNat - 4)] s = some t ∧
      exec (.blockDecode 1) s = .next u ∧ t.out = u.out ∧ t.inCur = s.inLen ∧ u.inCur = s.inLen

/-- R42: the byte view of the sink: two bytes a sample, low byte first, in order. -/
def Obligations.SinkByteView : Prop :=
  ∀ out : List OutEntry, (outBytes out).length = 2 * out.length ∧
    ∀ i (h : i < out.length), (outBytes out)[2 * i]? = some (out[i].sample.extractLsb' 0 8) ∧
      (outBytes out)[2 * i + 1]? = some (out[i].sample.extractLsb' 8 8)

/-- R68: the 32-bit word of a sink entry. -/
def Obligations.SinkEntryWord : Prop :=
  ∀ e : OutEntry, e.word.extractLsb' 24 8 = 0#8 ∧ e.word.extractLsb' 16 8 = e.chan ∧ e.word.extractLsb' 0 16 = e.sample

/-! ### The end of a run (70_reset_and_hazards.md) -/

/-- R185: a run that has a result has one response for each of its commands, in order after those already delivered; it is over,
with that state's responses, output, `CH` and cursor, as soon as no command is left, whatever host actions are (log 21); until
then it goes on with the next step; and a run whose next command is stuck or refused has no result. (The program list is the
model's, log 1.) -/
def Obligations.RunEndsWithLastResponse : Prop :=
  (∀ (s : State) (r : RunResult), s.result? = some r →
    ∃ rs, r.responses = s.responses ++ rs ∧ rs.length = (s.pending.filter HostAction.isCommand).length) ∧
  (∀ s : State, (∀ w, HostAction.issue w ∉ s.pending) →
    s.result? = some ⟨s.responses, s.drained ++ s.out, s.ch, s.inCur⟩) ∧
  (∀ (s t : State) (w : Command), HostAction.issue w ∈ s.pending → step s = .next t → s.result? = t.result?) ∧
  (∀ (s : State) (w : Command) (rest : List HostAction), s.pending = .issue w :: rest →
    ((∃ f, step s = .fault f) ∨ ∃ r, step s = .refused r) → s.result? = none)
end

