-- ==== Sys2Proof/Laws/Decode.lean ====
section
/-! SUPPORT. The fields of a packed command word, and how the operands survive their fields. -/

namespace Sys2Proof

theorem packCommand_toNat (op ch : BitVec 8) (arg : Word) :
    (packCommand op ch arg).toNat = op.toNat * 2 ^ 56 + ch.toNat * 2 ^ 48 + arg.toNat := by
  have h1 := op.isLt
  have h2 := ch.isLt
  have h3 := arg.isLt
  have h0 : (0 : BitVec 16).toNat = 0 := rfl
  simp only [packCommand, BitVec.toNat_append, h0, Nat.or_zero]
  rw [← Nat.shiftLeft_add_eq_or_of_lt h2, ← Nat.shiftLeft_add_eq_or_of_lt h3]
  simp only [Nat.shiftLeft_eq]
  omega

theorem packPair_toNat (idx pred : BitVec 16) : (packPair idx pred).toNat = idx.toNat * 2 ^ 16 + pred.toNat := by
  have h := pred.isLt
  simp only [packPair, BitVec.toNat_append]
  rw [← Nat.shiftLeft_add_eq_or_of_lt h, Nat.shiftLeft_eq]

/-- A command word is its fields. -/
theorem command_toNat (cmd : Command) :
    cmd.toNat = (opField cmd).toNat * 2 ^ 56 + (chField cmd).toNat * 2 ^ 48 + (rsvField cmd).toNat * 2 ^ 32
      + (argField cmd).toNat := by
  have h := cmd.isLt
  simp only [opField, chField, rsvField, argField, BitVec.extractLsb'_toNat, Nat.shiftRight_eq_div_pow]
  omega

@[simp] theorem opField_pack (op ch : BitVec 8) (arg : Word) : opField (packCommand op ch arg) = op := by
  apply BitVec.eq_of_toNat_eq
  have h1 := op.isLt
  have h2 := ch.isLt
  have h3 := arg.isLt
  simp only [opField, BitVec.extractLsb'_toNat, packCommand_toNat, Nat.shiftRight_eq_div_pow]
  omega

@[simp] theorem chField_pack (op ch : BitVec 8) (arg : Word) : chField (packCommand op ch arg) = ch := by
  apply BitVec.eq_of_toNat_eq
  have h1 := op.isLt
  have h2 := ch.isLt
  have h3 := arg.isLt
  simp only [chField, BitVec.extractLsb'_toNat, packCommand_toNat, Nat.shiftRight_eq_div_pow]
  omega

@[simp] theorem rsvField_pack (op ch : BitVec 8) (arg : Word) : rsvField (packCommand op ch arg) = 0 := by
  apply BitVec.eq_of_toNat_eq
  have h3 := arg.isLt
  simp only [rsvField, BitVec.extractLsb'_toNat, packCommand_toNat, Nat.shiftRight_eq_div_pow,
    show (0 : BitVec 16).toNat = 0 from rfl]
  omega

@[simp] theorem argField_pack (op ch : BitVec 8) (arg : Word) : argField (packCommand op ch arg) = arg := by
  apply BitVec.eq_of_toNat_eq
  have h3 := arg.isLt
  simp only [argField, BitVec.extractLsb'_toNat, packCommand_toNat, Nat.shiftRight_eq_div_pow]
  omega

@[simp] theorem argLow_pair (idx pred : BitVec 16) : argLow (packPair idx pred) = pred := by
  apply BitVec.eq_of_toNat_eq
  have h := pred.isLt
  simp only [argLow, BitVec.extractLsb'_toNat, packPair_toNat, Nat.shiftRight_eq_div_pow]
  omega

@[simp] theorem argHigh_pair (idx pred : BitVec 16) : argHigh (packPair idx pred) = idx := by
  apply BitVec.eq_of_toNat_eq
  have h := pred.isLt
  have h' := idx.isLt
  simp only [argHigh, BitVec.extractLsb'_toNat, packPair_toNat, Nat.shiftRight_eq_div_pow]
  omega

/-- The two halves of an `ARG` are its operand pair. -/
theorem packPair_halves (arg : Word) : packPair (argHigh arg) (argLow arg) = arg := by
  apply BitVec.eq_of_toNat_eq
  have h := arg.isLt
  simp only [packPair_toNat, argHigh, argLow, BitVec.extractLsb'_toNat, Nat.shiftRight_eq_div_pow]
  omega

/-- A word whose `RSV` is zero is the pack of its fields. -/
theorem command_eq_pack {cmd : Command} (h : rsvField cmd = 0) :
    cmd = packCommand (opField cmd) (chField cmd) (argField cmd) := by
  apply BitVec.eq_of_toNat_eq
  have h0 : (rsvField cmd).toNat = 0 := by rw [h]; rfl
  rw [packCommand_toNat, command_toNat cmd, h0, Nat.zero_mul, Nat.add_zero]

/-- Masking a packed word masks its fields. -/
theorem packCommand_and (op ch mop mch : BitVec 8) (mrsv : BitVec 16) (arg marg : Word) :
    packCommand op ch arg &&& (mop ++ mch ++ mrsv ++ marg) = packCommand (op &&& mop) (ch &&& mch) (arg &&& marg) := by
  have h : (op ++ ch ++ (0 : BitVec 16) ++ arg) &&& (mop ++ mch ++ mrsv ++ marg) =
      (op &&& mop) ++ (ch &&& mch) ++ ((0 : BitVec 16) &&& mrsv) ++ (arg &&& marg) := by
    simp only [BitVec.and_append]
  exact h.trans (by simp only [show (0 : BitVec 16) &&& mrsv = 0 from BitVec.zero_and]; rfl)

/-- What decodes has zero reserved bits and is the opcode map of its fields. -/
theorem decode_ok_iff {cmd : Command} {i : Instr} :
    decode cmd = .ok i ↔ rsvField cmd = 0 ∧ decodeFields (opField cmd) (chField cmd) (argField cmd) = .ok i := by
  unfold decode
  split
  · exact ⟨fun h => by simp at h, fun h => absurd h.1 ‹_›⟩
  · exact ⟨fun h => ⟨Decidable.not_not.mp ‹_›, h⟩, fun h => h.2⟩

/-- Decoding a packed word is the opcode map on its fields. -/
@[simp] theorem decode_pack (op ch : BitVec 8) (arg : Word) : decode (packCommand op ch arg) = decodeFields op ch arg := by
  simp [decode]

theorem toInt_ofInt_16 {x : Int} (h : -2 ^ 15 ≤ x ∧ x < 2 ^ 15) : (BitVec.ofInt 16 x).toInt = x := by
  rw [BitVec.toInt_ofInt]
  simp only [Int.bmod_def]
  omega

theorem isChannelField_iff {c : Nat} : isChannelField c = true ↔ c < 2 ^ 8 := by simp [isChannelField]
theorem isSigned16_iff {x : Int} : isSigned16 x = true ↔ -2 ^ 15 ≤ x ∧ x < 2 ^ 15 := by simp [isSigned16]
theorem isUnsigned16_iff {x : Nat} : isUnsigned16 x = true ↔ x < 2 ^ 16 := by simp [isUnsigned16]
theorem isUnsigned32_iff {x : Nat} : isUnsigned32 x = true ↔ x < 2 ^ 32 := by simp [isUnsigned32]

/-- A channel number, a count and the two pair operands come back from their fields. -/
@[simp] theorem toNat_channelField {c : Nat} (h : isChannelField c = true) : (BitVec.ofNat 8 c).toNat = c := by
  rw [isChannelField_iff] at h
  simp only [BitVec.toNat_ofNat]
  omega

@[simp] theorem toInt_signed16 {x : Int} (h : isSigned16 x = true) : (BitVec.ofInt 16 x).toInt = x :=
  toInt_ofInt_16 (isSigned16_iff.mp h)

@[simp] theorem toNat_unsigned16 {x : Nat} (h : isUnsigned16 x = true) : (BitVec.ofNat 16 x).toNat = x := by
  rw [isUnsigned16_iff] at h
  simp only [BitVec.toNat_ofNat]
  omega

@[simp] theorem toNat_unsigned32 {x : Nat} (h : isUnsigned32 x = true) : (BitVec.ofNat 32 x).toNat = x := by
  rw [isUnsigned32_iff] at h
  simp only [BitVec.toNat_ofNat]
  omega

/-! The opcode map, row by row (30_encoding.md R63). -/

variable (ch : BitVec 8) (arg : Word)

theorem decodeFields_seed : decodeFields 0x01 ch arg = .ok (.seed ch.toNat (argLow arg).toInt (argHigh arg).toInt) := rfl
theorem decodeFields_seedBytes : decodeFields 0x02 ch arg = .ok (.seedBytes) := rfl
theorem decodeFields_parse : decodeFields 0x03 ch arg = .ok (.parse ch.toNat arg.toNat) := rfl
theorem decodeFields_parseBlocks : decodeFields 0x04 ch arg = .ok (.parseBlocks ch.toNat arg.toNat) := rfl
theorem decodeFields_skip : decodeFields 0x05 ch arg = .ok (.skip ch.toNat arg.toNat) := rfl
theorem decodeFields_getState : decodeFields 0x06 ch arg = .ok (.getState ch.toNat) := rfl
theorem decodeFields_setState : decodeFields 0x07 ch arg = .ok (.setState ch.toNat (argLow arg).toInt (argHigh arg).toNat) := rfl
theorem decodeFields_blockDecode : decodeFields 0x08 ch arg = .ok (.blockDecode arg.toNat) := rfl
theorem decodeFields_encodeStub : decodeFields 0x09 ch arg = .ok (.encodeStub) := rfl
theorem decodeFields_seek : decodeFields 0x0A ch arg = .ok (.seek arg.toNat) := rfl

end Sys2Proof
end

