-- ==== Sys2Proof/Laws/Memory.lean ====
section
/-! SUPPORT. The input buffer: loading gives the canonical form and the bytes loaded; equal canonical buffers are equal data. -/

namespace Sys2Proof.Machine

@[simp] theorem Memory.read_nil (a : Nat) : Memory.read [] a = Memory.unlisted := rfl

theorem Memory.wfFrom_mono {m : List Host.Cell} {lo lo' : Nat} (h : Memory.wfFrom lo m = true) (hl : lo' ≤ lo) :
    Memory.wfFrom lo' m = true := by
  cases m with
  | nil => rfl
  | cons c rest =>
    simp only [Memory.wfFrom, Bool.and_eq_true, decide_eq_true_eq] at h ⊢
    exact ⟨⟨hl.trans h.1.1, h.1.2⟩, h.2⟩

/-- Loading a run of bytes gives the canonical form. -/
theorem Memory.wfFrom_ofBytes (bs : List Byte) (a : Nat) : Memory.wfFrom a (Memory.ofBytes a bs) = true := by
  induction bs generalizing a with
  | nil => rfl
  | cons b rest ih =>
    by_cases hb : b = Memory.unlisted
    · simpa [Memory.ofBytes, hb] using Memory.wfFrom_mono (ih (a + 1)) (Nat.le_succ a)
    · simp [Memory.ofBytes, hb, Memory.wfFrom, ih]

theorem Memory.wf_ofBytes (bs : List Byte) : Memory.wf (Memory.ofBytes 0 bs) = true := Memory.wfFrom_ofBytes bs 0

/-- Loading `n` bytes at `a` lists no cell at or beyond `a + n`. -/
theorem Memory.below_ofBytes (bs : List Byte) (a : Nat) :
    Memory.below (a + bs.length) (Memory.ofBytes a bs) = true := by
  induction bs generalizing a with
  | nil => rfl
  | cons b rest ih =>
    have h := ih (a + 1)
    rw [Nat.add_right_comm] at h
    by_cases hb : b = Memory.unlisted
    · simpa [Memory.ofBytes, hb, ← Nat.add_assoc] using h
    · simp only [Memory.ofBytes, hb, if_false, Memory.below, List.all_cons, Bool.and_eq_true, decide_eq_true_eq,
        List.length_cons]
      exact ⟨by omega, by simpa [Memory.below, ← Nat.add_assoc] using h⟩

/-- Below its first index a buffer reads as unlisted. -/
theorem Memory.read_of_lt {m : List Host.Cell} {lo a : Nat} (h : Memory.wfFrom lo m = true) (ha : a < lo) :
    Memory.read m a = Memory.unlisted := by
  induction m generalizing lo with
  | nil => rfl
  | cons c rest ih =>
    simp only [Memory.wfFrom, Bool.and_eq_true, decide_eq_true_eq] at h
    have hne : c.1 ≠ a := by omega
    simpa [Memory.read, hne] using ih h.2 (by omega)

/-- A loaded run reads back byte for byte, and unlisted after its end. -/
theorem Memory.read_ofBytes (bs : List Byte) (a i : Nat) :
    Memory.read (Memory.ofBytes a bs) (a + i) = bs.getD i Memory.unlisted := by
  induction bs generalizing a i with
  | nil => simp [Memory.ofBytes]
  | cons b rest ih =>
    cases i with
    | zero =>
      by_cases hb : b = Memory.unlisted
      · simpa [Memory.ofBytes, hb] using Memory.read_of_lt (Memory.wfFrom_ofBytes rest (a + 1)) (Nat.lt_succ_self a)
      · simp [Memory.ofBytes, hb, Memory.read]
    | succ i =>
      have h := ih (a + 1) i
      rw [Nat.add_right_comm, Nat.add_assoc] at h
      by_cases hb : b = Memory.unlisted
      · simpa [Memory.ofBytes, hb] using h
      · simpa [Memory.ofBytes, hb, Memory.read] using h

/-- Two canonical buffers that read alike are equal. -/
theorem Memory.ext_of_read {m m' : List Host.Cell} {lo : Nat} (h : Memory.wfFrom lo m = true)
    (h' : Memory.wfFrom lo m' = true) (hr : ∀ a, Memory.read m a = Memory.read m' a) : m = m' := by
  induction m generalizing m' lo with
  | nil =>
    cases m' with
    | nil => rfl
    | cons c rest =>
      simp only [Memory.wfFrom, Bool.and_eq_true, decide_eq_true_eq] at h'
      exact absurd (by simpa [Memory.read] using (hr c.1).symm) h'.1.2
  | cons c rest ih =>
    simp only [Memory.wfFrom, Bool.and_eq_true, decide_eq_true_eq] at h
    cases m' with
    | nil => exact absurd (by simpa [Memory.read] using hr c.1) h.1.2
    | cons c' rest' =>
      simp only [Memory.wfFrom, Bool.and_eq_true, decide_eq_true_eq] at h'
      have hk : c.1 = c'.1 := by
        rcases Nat.lt_trichotomy c.1 c'.1 with hlt | heq | hgt
        · have := hr c.1
          rw [Memory.read_of_lt (m := c' :: rest') (lo := c'.1) (by simp [Memory.wfFrom, h'.1.2, h'.2]) hlt] at this
          exact absurd (by simpa [Memory.read] using this) h.1.2
        · exact heq
        · have := (hr c'.1).symm
          rw [Memory.read_of_lt (m := c :: rest) (lo := c.1) (by simp [Memory.wfFrom, h.1.2, h.2]) hgt] at this
          exact absurd (by simpa [Memory.read] using this) h'.1.2
      have hb : c.2 = c'.2 := by simpa [Memory.read, hk] using hr c.1
      have hc : c = c' := Prod.ext hk hb
      subst hc
      congr 1
      refine ih h.2 h'.2 fun a => ?_
      by_cases ha : c.1 = a
      · rw [Memory.read_of_lt h.2 (by omega), Memory.read_of_lt h'.2 (by omega)]
      · simpa [Memory.read, ha] using hr a

@[simp] theorem Memory.bytesAt_length (m : List Host.Cell) (a n : Nat) : (Memory.bytesAt m a n).length = n := by
  induction n generalizing a with
  | zero => rfl
  | succ n ih => simp [Memory.bytesAt, ih]

theorem Memory.bytesAt_add (m : List Host.Cell) (a n k : Nat) :
    Memory.bytesAt m a (n + k) = Memory.bytesAt m a n ++ Memory.bytesAt m (a + n) k := by
  induction n generalizing a with
  | zero => simp [Memory.bytesAt]
  | succ n ih =>
    rw [Nat.add_right_comm, Memory.bytesAt, Memory.bytesAt, List.cons_append, ih, Nat.add_right_comm, Nat.add_assoc]

theorem Memory.bytesAt_congr {m m' : List Host.Cell} {a a' n : Nat}
    (h : ∀ i < n, Memory.read m (a + i) = Memory.read m' (a' + i)) :
    Memory.bytesAt m a n = Memory.bytesAt m' a' n := by
  induction n generalizing a a' with
  | zero => rfl
  | succ n ih =>
    have h0 := h 0 (Nat.succ_pos n)
    simp only [Nat.add_zero] at h0
    rw [Memory.bytesAt, Memory.bytesAt, h0, ih (a := a + 1) (a' := a' + 1) fun i hi => by
      simpa [Nat.add_assoc, Nat.add_comm 1] using h (i + 1) (by omega)]

end Sys2Proof.Machine
end

