-- ==== Sys2Proof/Laws/Rom.lean ====
section
/-! SUPPORT. The clamps' ranges, the tables' ranges, and what one sample decode and one preamble install can leave. -/

namespace Sys2Proof.Machine

theorem clampStepIndex_range (i : Int) : 0 ≤ clampStepIndex i ∧ clampStepIndex i ≤ 88 := by
  unfold clampStepIndex
  split <;> [omega; split <;> omega]

theorem clampStepIndex_of_range {i : Int} (h : 0 ≤ i ∧ i ≤ 88) : clampStepIndex i = i := by
  unfold clampStepIndex
  split <;> [omega; split <;> omega]

theorem predictorFloor_range (v : Variant) : -32768 ≤ predictorFloor v ∧ predictorFloor v ≤ -32767 := by
  cases v <;> decide

theorem clampPredictor_range (v : Variant) (p : Int) :
    predictorFloor v ≤ clampPredictor v p ∧ clampPredictor v p ≤ 32767 := by
  have := predictorFloor_range v
  unfold clampPredictor
  omega

/-- A clamped predictor fits its register. -/
theorem toInt_clampPredictor (v : Variant) (p : Int) : (BitVec.ofInt 16 (clampPredictor v p)).toInt = clampPredictor v p := by
  have h := clampPredictor_range v p
  have := predictorFloor_range v
  rw [BitVec.toInt_ofInt, Int.bmod_def]
  omega

/-- A clamped step index fits its register. -/
theorem toNat_clampStepIndex (i : Int) : ((BitVec.ofInt 7 (clampStepIndex i)).toNat : Int) = clampStepIndex i := by
  have h := clampStepIndex_range i
  rw [BitVec.toNat_ofInt]
  omega

theorem toNat_clampStepIndex_le (i : Int) : (BitVec.ofInt 7 (clampStepIndex i)).toNat ≤ 88 := by
  have h := clampStepIndex_range i
  have := toNat_clampStepIndex i
  omega

/-- The ROM answers a value of 7 to 32767 at every index it has (40_tables_and_policy.md R81). -/
theorem stepSize_range (i : BitVec 7) (h : i.toNat ≤ 88) : 7 ≤ stepSize i ∧ stepSize i ≤ 32767 := by
  have all : ∀ k : Fin 89, 7 ≤ stepSizeTable[k.val]?.getD 0 ∧ stepSizeTable[k.val]?.getD 0 ≤ 32767 := by decide
  have hk := all ⟨i.toNat, by omega⟩
  have hlen : i.toNat < stepSizeTable.length := by
    rw [show stepSizeTable.length = 89 from by decide]; omega
  simpa [stepSize, List.getElem?_eq_getElem hlen] using hk

/-- The sample is the new predictor (41_sample_decode.md R90 step 6). -/
@[simp] theorem decodeSample_sample (v : Variant) (st : ChannelState) (s : Code) :
    (decodeSample v st s).2 = (decodeSample v st s).1.predictor := rfl

theorem decodeSample_index_le (v : Variant) (st : ChannelState) (s : Code) :
    (decodeSample v st s).1.stepIndex.toNat ≤ 88 := toNat_clampStepIndex_le _

theorem decodeSample_predictor (v : Variant) (st : ChannelState) (s : Code) :
    (decodeSample v st s).1.predictor.toInt =
      nextPredictor v st.predictor.toInt (sampleDiff (stepSize st.stepIndex) s) s := toInt_clampPredictor v _

theorem decodeSample_floor (v : Variant) (st : ChannelState) (s : Code) :
    predictorFloor v ≤ (decodeSample v st s).1.predictor.toInt := by
  rw [decodeSample_predictor]
  exact (clampPredictor_range v _).1

theorem installPreamble_index_le (p : Straps) (pred idx : Int) : (installPreamble p pred idx).stepIndex.toNat ≤ 88 :=
  toNat_clampStepIndex_le idx

/-- One byte is two sample decodes (43_streaming.md R117). -/
theorem decodeByte_eq (p : Straps) (st : ChannelState) (b : Byte) :
    decodeByte p st b =
      let first := decodeSample p.variant st (nibbles p.nibbleOrder b).1
      let second := decodeSample p.variant first.1 (nibbles p.nibbleOrder b).2
      (second.1, first.2, second.2) := rfl

theorem decodeByte_index_le (p : Straps) (st : ChannelState) (b : Byte) : (decodeByte p st b).1.stepIndex.toNat ≤ 88 :=
  decodeSample_index_le ..

theorem decodeByte_floor (p : Straps) (st : ChannelState) (b : Byte) :
    predictorFloor p.variant ≤ (decodeByte p st b).2.1.toInt ∧ predictorFloor p.variant ≤ (decodeByte p st b).2.2.toInt :=
  ⟨decodeSample_floor .., decodeSample_floor ..⟩

end Sys2Proof.Machine
end

