-- ==== Sys2Proof/Laws/State.lean ====
section
/-! SUPPORT. One lemma per field per update of the state, so that no later proof unfolds a record update. -/

namespace Sys2Proof.Machine

variable (s : State)

@[simp] theorem State.advance_straps : s.advance.straps = s.straps := rfl
@[simp] theorem State.advance_ch : s.advance.ch = s.ch := rfl
@[simp] theorem State.advance_inCur : s.advance.inCur = s.inCur + 1 := rfl
@[simp] theorem State.advance_inBuf : s.advance.inBuf = s.inBuf := rfl
@[simp] theorem State.advance_inLen : s.advance.inLen = s.inLen := rfl
@[simp] theorem State.advance_out : s.advance.out = s.out := rfl
@[simp] theorem State.advance_pending : s.advance.pending = s.pending := rfl
@[simp] theorem State.advance_responses : s.advance.responses = s.responses := rfl
@[simp] theorem State.advance_drained : s.advance.drained = s.drained := rfl

@[simp] theorem State.writeCh_straps (c : Nat) (st : ChannelState) : (s.writeCh c st).straps = s.straps := rfl
@[simp] theorem State.writeCh_ch (c : Nat) (st : ChannelState) : (s.writeCh c st).ch = s.ch.set c st := rfl
@[simp] theorem State.writeCh_inCur (c : Nat) (st : ChannelState) : (s.writeCh c st).inCur = s.inCur := rfl
@[simp] theorem State.writeCh_inBuf (c : Nat) (st : ChannelState) : (s.writeCh c st).inBuf = s.inBuf := rfl
@[simp] theorem State.writeCh_inLen (c : Nat) (st : ChannelState) : (s.writeCh c st).inLen = s.inLen := rfl
@[simp] theorem State.writeCh_out (c : Nat) (st : ChannelState) : (s.writeCh c st).out = s.out := rfl
@[simp] theorem State.writeCh_pending (c : Nat) (st : ChannelState) : (s.writeCh c st).pending = s.pending := rfl
@[simp] theorem State.writeCh_responses (c : Nat) (st : ChannelState) : (s.writeCh c st).responses = s.responses := rfl
@[simp] theorem State.writeCh_drained (c : Nat) (st : ChannelState) : (s.writeCh c st).drained = s.drained := rfl

@[simp] theorem State.outAppend_straps (c : Nat) (x : Sample) : (s.outAppend c x).straps = s.straps := rfl
@[simp] theorem State.outAppend_ch (c : Nat) (x : Sample) : (s.outAppend c x).ch = s.ch := rfl
@[simp] theorem State.outAppend_inCur (c : Nat) (x : Sample) : (s.outAppend c x).inCur = s.inCur := rfl
@[simp] theorem State.outAppend_inBuf (c : Nat) (x : Sample) : (s.outAppend c x).inBuf = s.inBuf := rfl
@[simp] theorem State.outAppend_inLen (c : Nat) (x : Sample) : (s.outAppend c x).inLen = s.inLen := rfl
@[simp] theorem State.outAppend_out (c : Nat) (x : Sample) : (s.outAppend c x).out = s.out ++ [⟨BitVec.ofNat 8 c, x⟩] := rfl
@[simp] theorem State.outAppend_pending (c : Nat) (x : Sample) : (s.outAppend c x).pending = s.pending := rfl
@[simp] theorem State.outAppend_responses (c : Nat) (x : Sample) : (s.outAppend c x).responses = s.responses := rfl
@[simp] theorem State.outAppend_drained (c : Nat) (x : Sample) : (s.outAppend c x).drained = s.drained := rfl

@[simp] theorem State.setCursor_straps (pos : Nat) : (s.setCursor pos).straps = s.straps := rfl
@[simp] theorem State.setCursor_ch (pos : Nat) : (s.setCursor pos).ch = s.ch := rfl
@[simp] theorem State.setCursor_inCur (pos : Nat) : (s.setCursor pos).inCur = BitVec.ofNat 32 pos := rfl
@[simp] theorem State.setCursor_inBuf (pos : Nat) : (s.setCursor pos).inBuf = s.inBuf := rfl
@[simp] theorem State.setCursor_inLen (pos : Nat) : (s.setCursor pos).inLen = s.inLen := rfl
@[simp] theorem State.setCursor_out (pos : Nat) : (s.setCursor pos).out = s.out := rfl
@[simp] theorem State.setCursor_pending (pos : Nat) : (s.setCursor pos).pending = s.pending := rfl
@[simp] theorem State.setCursor_responses (pos : Nat) : (s.setCursor pos).responses = s.responses := rfl
@[simp] theorem State.setCursor_drained (pos : Nat) : (s.setCursor pos).drained = s.drained := rfl

@[simp] theorem State.respond_straps (k : Status) (v : Word) : (s.respond k v).straps = s.straps := rfl
@[simp] theorem State.respond_ch (k : Status) (v : Word) : (s.respond k v).ch = s.ch := rfl
@[simp] theorem State.respond_inCur (k : Status) (v : Word) : (s.respond k v).inCur = s.inCur := rfl
@[simp] theorem State.respond_inBuf (k : Status) (v : Word) : (s.respond k v).inBuf = s.inBuf := rfl
@[simp] theorem State.respond_inLen (k : Status) (v : Word) : (s.respond k v).inLen = s.inLen := rfl
@[simp] theorem State.respond_out (k : Status) (v : Word) : (s.respond k v).out = s.out := rfl
@[simp] theorem State.respond_pending (k : Status) (v : Word) : (s.respond k v).pending = s.pending := rfl
@[simp] theorem State.respond_responses (k : Status) (v : Word) : (s.respond k v).responses = s.responses ++ [⟨k, v⟩] := rfl
@[simp] theorem State.respond_drained (k : Status) (v : Word) : (s.respond k v).drained = s.drained := rfl

@[simp] theorem State.applyReset_straps (p : Straps) : (s.applyReset p).straps = p := rfl
@[simp] theorem State.applyReset_ch (p : Straps) : (s.applyReset p).ch = resetChannels p := rfl
@[simp] theorem State.applyReset_inCur (p : Straps) : (s.applyReset p).inCur = 0 := rfl
@[simp] theorem State.applyReset_inBuf (p : Straps) : (s.applyReset p).inBuf = [] := rfl
@[simp] theorem State.applyReset_inLen (p : Straps) : (s.applyReset p).inLen = 0 := rfl
@[simp] theorem State.applyReset_out (p : Straps) : (s.applyReset p).out = [] := rfl
@[simp] theorem State.applyReset_pending (p : Straps) : (s.applyReset p).pending = s.pending := rfl
@[simp] theorem State.applyReset_responses (p : Straps) : (s.applyReset p).responses = s.responses := rfl
@[simp] theorem State.applyReset_drained (p : Straps) : (s.applyReset p).drained = s.drained := rfl

@[simp] theorem State.loadInput_straps (bs : List Byte) : (s.loadInput bs).straps = s.straps := rfl
@[simp] theorem State.loadInput_ch (bs : List Byte) : (s.loadInput bs).ch = s.ch := rfl
@[simp] theorem State.loadInput_inCur (bs : List Byte) : (s.loadInput bs).inCur = s.inCur := rfl
@[simp] theorem State.loadInput_inBuf (bs : List Byte) : (s.loadInput bs).inBuf = Memory.ofBytes 0 bs := rfl
@[simp] theorem State.loadInput_inLen (bs : List Byte) : (s.loadInput bs).inLen = BitVec.ofNat 32 bs.length := rfl
@[simp] theorem State.loadInput_out (bs : List Byte) : (s.loadInput bs).out = s.out := rfl
@[simp] theorem State.loadInput_pending (bs : List Byte) : (s.loadInput bs).pending = s.pending := rfl
@[simp] theorem State.loadInput_responses (bs : List Byte) : (s.loadInput bs).responses = s.responses := rfl
@[simp] theorem State.loadInput_drained (bs : List Byte) : (s.loadInput bs).drained = s.drained := rfl

@[simp] theorem State.drainOut_straps : s.drainOut.straps = s.straps := rfl
@[simp] theorem State.drainOut_ch : s.drainOut.ch = s.ch := rfl
@[simp] theorem State.drainOut_inCur : s.drainOut.inCur = s.inCur := rfl
@[simp] theorem State.drainOut_inBuf : s.drainOut.inBuf = s.inBuf := rfl
@[simp] theorem State.drainOut_inLen : s.drainOut.inLen = s.inLen := rfl
@[simp] theorem State.drainOut_out : s.drainOut.out = [] := rfl
@[simp] theorem State.drainOut_pending : s.drainOut.pending = s.pending := rfl
@[simp] theorem State.drainOut_responses : s.drainOut.responses = s.responses := rfl
@[simp] theorem State.drainOut_drained : s.drainOut.drained = s.drained ++ s.out := rfl

@[simp] theorem State.takeFront_straps (n : Nat) : (s.takeFront n).straps = s.straps := rfl
@[simp] theorem State.takeFront_ch (n : Nat) : (s.takeFront n).ch = s.ch := rfl
@[simp] theorem State.takeFront_inCur (n : Nat) : (s.takeFront n).inCur = s.inCur := rfl
@[simp] theorem State.takeFront_inBuf (n : Nat) : (s.takeFront n).inBuf = s.inBuf := rfl
@[simp] theorem State.takeFront_inLen (n : Nat) : (s.takeFront n).inLen = s.inLen := rfl
@[simp] theorem State.takeFront_out (n : Nat) : (s.takeFront n).out = s.out.drop n := rfl
@[simp] theorem State.takeFront_pending (n : Nat) : (s.takeFront n).pending = s.pending := rfl
@[simp] theorem State.takeFront_responses (n : Nat) : (s.takeFront n).responses = s.responses := rfl
@[simp] theorem State.takeFront_drained (n : Nat) : (s.takeFront n).drained = s.drained ++ s.out.take n := rfl

@[simp] theorem State.withPending_straps (rest : List HostAction) : (s.withPending rest).straps = s.straps := rfl
@[simp] theorem State.withPending_ch (rest : List HostAction) : (s.withPending rest).ch = s.ch := rfl
@[simp] theorem State.withPending_inCur (rest : List HostAction) : (s.withPending rest).inCur = s.inCur := rfl
@[simp] theorem State.withPending_inBuf (rest : List HostAction) : (s.withPending rest).inBuf = s.inBuf := rfl
@[simp] theorem State.withPending_inLen (rest : List HostAction) : (s.withPending rest).inLen = s.inLen := rfl
@[simp] theorem State.withPending_out (rest : List HostAction) : (s.withPending rest).out = s.out := rfl
@[simp] theorem State.withPending_pending (rest : List HostAction) : (s.withPending rest).pending = rest := rfl
@[simp] theorem State.withPending_responses (rest : List HostAction) : (s.withPending rest).responses = s.responses := rfl
@[simp] theorem State.withPending_drained (rest : List HostAction) : (s.withPending rest).drained = s.drained := rfl

@[simp] theorem State.pastPreamble_straps : s.pastPreamble.straps = s.straps := rfl
@[simp] theorem State.pastPreamble_ch : s.pastPreamble.ch = s.ch := rfl
@[simp] theorem State.pastPreamble_inCur : s.pastPreamble.inCur = s.inCur + 1 + 1 + 1 + 1 := rfl
@[simp] theorem State.pastPreamble_inBuf : s.pastPreamble.inBuf = s.inBuf := rfl
@[simp] theorem State.pastPreamble_inLen : s.pastPreamble.inLen = s.inLen := rfl
@[simp] theorem State.pastPreamble_out : s.pastPreamble.out = s.out := rfl
@[simp] theorem State.pastPreamble_pending : s.pastPreamble.pending = s.pending := rfl
@[simp] theorem State.pastPreamble_responses : s.pastPreamble.responses = s.responses := rfl
@[simp] theorem State.pastPreamble_drained : s.pastPreamble.drained = s.drained := rfl

end Sys2Proof.Machine
end

