-- ==== Sys2Proof/Laws/Ops.lean ====
section
/-! SUPPORT. What each shared operation does, said once: the loops of the commands against lists of bytes and codes. -/

namespace Sys2Proof.Machine

/-! ### The cursor -/

theorem cursor_one (a : Word) (n : Nat) : a + 1 + BitVec.ofNat 32 n = a + BitVec.ofNat 32 (n + 1) := by
  rw [show (1 : Word) = BitVec.ofNat 32 1 from rfl]
  apply BitVec.eq_of_toNat_eq
  simp only [BitVec.toNat_add, BitVec.toNat_ofNat]
  omega

/-- Moving the cursor over unread bytes does not wrap (10_state.md R25). -/
theorem State.cursor_add {s : State} {n : Nat} (h : n ≤ s.inAvail) :
    (s.inCur + BitVec.ofNat 32 n).toNat = s.inCur.toNat + n := by
  have := s.inLen.isLt
  have := s.inCur.isLt
  unfold State.inAvail at h
  rw [BitVec.toNat_add, BitVec.toNat_ofNat]
  omega

theorem State.inAvail_advance {s : State} {n : Nat} (h : n + 1 ≤ s.inAvail) :
    s.advance.inAvail = s.inAvail - 1 ∧ s.advance.inCur.toNat = s.inCur.toNat + 1 := by
  have hc := State.cursor_add (s := s) (n := 1) (by omega)
  have hc' : s.advance.inCur.toNat = s.inCur.toNat + 1 := hc
  refine ⟨?_, hc'⟩
  unfold State.inAvail at *
  rw [hc']
  simp only [State.advance_inLen]
  omega

theorem State.upcoming_succ (s : State) (n : Nat) (h : n + 1 ≤ s.inAvail) :
    s.upcoming (n + 1) = s.inByte :: s.advance.upcoming n := by
  simp only [State.upcoming, Memory.bytesAt, State.inByte, (State.inAvail_advance h).2, State.advance_inBuf]

/-! ### Byte streams -/

theorem decodeBytes_append (p : Straps) (st : ChannelState) (xs ys : List Byte) :
    decodeBytes p st (xs ++ ys) =
      ((decodeBytes p (decodeBytes p st xs).1 ys).1,
        (decodeBytes p st xs).2 ++ (decodeBytes p (decodeBytes p st xs).1 ys).2) := by
  induction xs generalizing st with
  | nil => simp [decodeBytes]
  | cons b rest ih => simp [decodeBytes, ih]

theorem decodeBytes_length (p : Straps) (st : ChannelState) (bs : List Byte) :
    (decodeBytes p st bs).2.length = 2 * bs.length := by
  induction bs generalizing st with
  | nil => rfl
  | cons b rest ih => simp [decodeBytes, ih]; omega

theorem decodeBytes_index_le (p : Straps) (st : ChannelState) (bs : List Byte) (h : st.stepIndex.toNat ≤ 88) :
    (decodeBytes p st bs).1.stepIndex.toNat ≤ 88 := by
  induction bs generalizing st with
  | nil => exact h
  | cons b rest ih => exact ih _ (decodeByte_index_le p st b)

theorem decodeBytes_floor (p : Straps) (st : ChannelState) (bs : List Byte) :
    ∀ x ∈ (decodeBytes p st bs).2, predictorFloor p.variant ≤ x.toInt := by
  induction bs generalizing st with
  | nil => intro x hx; exact absurd hx (by simp [decodeBytes])
  | cons b rest ih =>
    intro x hx
    simp only [decodeBytes, List.mem_cons] at hx
    rcases hx with rfl | rfl | hx
    · exact (decodeByte_floor p st b).1
    · exact (decodeByte_floor p st b).2
    · exact ih _ x hx

/-! ### The streaming loop -/

@[simp] theorem State.readCh_writeCh_same (s : State) (c : Nat) (st : ChannelState) (h : c < s.ch.length) :
    (s.writeCh c st).readCh c = st := by
  simp [State.readCh, h]

theorem State.readCh_writeCh_ne (s : State) {c d : Nat} (st : ChannelState) (h : d ≠ c) :
    (s.writeCh c st).readCh d = s.readCh d := by
  simp [State.readCh, List.getD_eq_getElem?_getD, h.symm]

theorem set_getD_self (l : List ChannelState) (c : Nat) (h : c < l.length) : l.set c (l.getD c ChannelState.zero) = l := by
  rw [List.getD_eq_getElem?_getD, List.getElem?_eq_getElem h, Option.getD_some, List.set_getElem_self]

/-- One byte of the loop, as one record. -/
theorem State.decodeOne_eq (emit : Bool) (c : Nat) (s : State) :
    s.decodeOne emit c =
      { s with
        ch := s.ch.set c (decodeByte s.straps (s.readCh c) s.inByte).1
        inCur := s.inCur + 1
        out := s.out ++ (if emit then tagSamples c [(decodeByte s.straps (s.readCh c) s.inByte).2.1,
          (decodeByte s.straps (s.readCh c) s.inByte).2.2] else []) } := by
  cases emit <;>
    simp [State.decodeOne, State.advance, State.writeCh, State.outAppend, tagSamples]

/-- THE STREAMING LOOP: PARSE (`emit`) and SKIP are the decode of the next `n` bytes for channel `c`; nothing else moves
(43_streaming.md R116, R122). -/
theorem State.decodeRun_eq (emit : Bool) (c n : Nat) (s : State) (hn : n ≤ s.inAvail) (hc : c < s.ch.length) :
    State.decodeRun emit c n s =
      { s with
        ch := s.ch.set c (decodeBytes s.straps (s.readCh c) (s.upcoming n)).1
        inCur := s.inCur + BitVec.ofNat 32 n
        out := s.out ++ (if emit then tagSamples c (decodeBytes s.straps (s.readCh c) (s.upcoming n)).2 else []) } := by
  induction n generalizing s with
  | zero =>
    simp [State.decodeRun, State.upcoming, Memory.bytesAt, decodeBytes, tagSamples, State.readCh]
    rw [List.getElem?_eq_getElem hc, Option.getD_some, List.set_getElem_self]
  | succ n ih =>
    have hlen : (s.decodeOne emit c).inAvail = s.advance.inAvail := by
      rw [State.decodeOne_eq]; rfl
    have hav := State.inAvail_advance hn
    have hread : (s.decodeOne emit c).readCh c = (decodeByte s.straps (s.readCh c) s.inByte).1 := by
      rw [State.decodeOne_eq]; simp [State.readCh, hc]
    have hup : (s.decodeOne emit c).upcoming n = s.advance.upcoming n := by
      rw [State.decodeOne_eq]; rfl
    rw [State.decodeRun, ih _ (by omega) (by rw [State.decodeOne_eq]; simpa using hc), hread, hup,
      State.upcoming_succ s n hn, State.decodeOne_eq]
    simp only [decodeBytes, List.set_set]
    congr 1
    · exact cursor_one s.inCur n
    · cases emit <;> simp [tagSamples]

/-! ### Preambles -/

theorem State.pastPreamble_cursor {s : State} {m : Nat} (h : 4 * (m + 1) ≤ s.inAvail) :
    s.pastPreamble.inCur.toNat = s.inCur.toNat + 4 ∧ s.pastPreamble.inAvail = s.inAvail - 4 ∧
      s.pastPreamble.inCur = s.inCur + BitVec.ofNat 32 4 := by
  have he : s.pastPreamble.inCur = s.inCur + BitVec.ofNat 32 4 := by
    simp only [State.pastPreamble_inCur, BitVec.add_assoc]
    rfl
  have hc : s.pastPreamble.inCur.toNat = s.inCur.toNat + 4 := by
    rw [he]; exact State.cursor_add (by omega)
  refine ⟨hc, ?_, he⟩
  unfold State.inAvail at *
  rw [hc, State.pastPreamble_inLen]
  omega

/-- One preamble is the four bytes at the cursor (30_encoding.md R66). -/
theorem State.preamble_eq {s : State} (h : 4 ≤ s.inAvail) :
    s.preamble = preambleAt s.straps s.inBuf s.inCur.toNat := by
  have h1 := State.inAvail_advance (s := s) (n := 3) (by omega)
  have h2 := State.inAvail_advance (s := s.advance) (n := 2) (by omega)
  have h3 := State.inAvail_advance (s := s.advance.advance) (n := 1) (by omega)
  simp only [State.preamble, State.in16, State.inByte, preambleAt, h1.2, h2.2, h3.2, State.advance_inBuf, Nat.add_assoc]

theorem State.pastPreamble_eq (s : State) : s.pastPreamble = { s with inCur := s.inCur + BitVec.ofNat 32 4 } := by
  simp only [State.pastPreamble, State.advance, BitVec.add_assoc]
  rfl

theorem cursor_step (a : Word) (m : Nat) :
    a + BitVec.ofNat 32 4 + BitVec.ofNat 32 (4 * m) = a + BitVec.ofNat 32 (4 * (m + 1)) := by
  apply BitVec.eq_of_toNat_eq
  simp only [BitVec.toNat_add, BitVec.toNat_ofNat]
  omega

/-- THE PREAMBLE LOOP of BLOCK_DECODE: the scratch file is the `m` preambles at the cursor (42_block_decoder.md R101). -/
theorem State.blockPreambles_eq (m : Nat) (s : State) (h : 4 * m ≤ s.inAvail) :
    State.blockPreambles m s =
      (preamblesAt s.straps s.inBuf s.inCur.toNat m, { s with inCur := s.inCur + BitVec.ofNat 32 (4 * m) }) := by
  induction m generalizing s with
  | zero => simp [State.blockPreambles, preamblesAt]
  | succ m ih =>
    have hp := State.pastPreamble_cursor (s := s) (m := m) h
    rw [State.blockPreambles, ih _ (by omega), State.preamble_eq (by omega), hp.1]
    simp only [preamblesAt, State.pastPreamble_straps, State.pastPreamble_inBuf]
    rw [State.pastPreamble_eq]
    simp only [cursor_step]

theorem preamblesAt_length (p : Straps) (m : List Host.Cell) (a n : Nat) : (preamblesAt p m a n).length = n := by
  induction n generalizing a with
  | zero => rfl
  | succ n ih => simp [preamblesAt, ih]

theorem preamblesAt_getD (p : Straps) (m : List Host.Cell) (a n c : Nat) (h : c < n) :
    (preamblesAt p m a n).getD c ChannelState.zero = preambleAt p m (a + 4 * c) := by
  induction n generalizing a c with
  | zero => omega
  | succ n ih =>
    cases c with
    | zero => simp [preamblesAt]
    | succ c =>
      have := ih (a + 4) c (by omega)
      simp only [preamblesAt, List.getD_cons_succ, this]
      congr 1
      omega

theorem preamblesAt_index_le (p : Straps) (m : List Host.Cell) (a n : Nat) :
    ∀ st ∈ preamblesAt p m a n, st.stepIndex.toNat ≤ 88 := by
  induction n generalizing a with
  | zero => intro st h; exact absurd h (by simp [preamblesAt])
  | succ n ih =>
    intro st h
    simp only [preamblesAt, List.mem_cons] at h
    rcases h with rfl | h
    · exact installPreamble_index_le ..
    · exact ih _ st h

/-- SEED_BYTES' LOOP: from channel `c` on, the `m` channels take the `m` preambles at the cursor (43_streaming.md R115). -/
theorem State.seedRun_eq (m c : Nat) (s : State) (h : 4 * m ≤ s.inAvail) (hl : s.ch.length = c + m) :
    State.seedRun m c s =
      { s with
        ch := s.ch.take c ++ preamblesAt s.straps s.inBuf s.inCur.toNat m
        inCur := s.inCur + BitVec.ofNat 32 (4 * m) } := by
  induction m generalizing s c with
  | zero =>
    have ht : s.ch.take c = s.ch := List.take_of_length_le (by omega)
    simp [State.seedRun, preamblesAt, ht]
  | succ m ih =>
    have hp := State.pastPreamble_cursor (s := s) (m := m) h
    have hav : (s.pastPreamble.writeCh c s.preamble).inAvail = s.pastPreamble.inAvail := rfl
    rw [State.seedRun, ih (c + 1) _ (by omega) (by simp [hl]; omega), State.preamble_eq (by omega)]
    simp only [State.writeCh_straps, State.writeCh_inBuf, State.writeCh_inCur, hp.1, State.writeCh_ch,
      State.pastPreamble_straps, State.pastPreamble_inBuf, State.pastPreamble_ch, preamblesAt]
    rw [State.pastPreamble_eq]
    simp only [State.writeCh, cursor_step]
    congr 1
    rw [List.take_set, List.take_succ_eq_append_getElem (by omega), List.set_append_right _ _ (by simp)]
    simp [Nat.min_eq_left (show c ≤ s.ch.length by omega)]

/-! ### The block decoder's loop -/

theorem State.blockByte_eq (c k : Nat) (bs : List ChannelState) (s : State) :
    let r := decodeSample s.straps.variant (bs.getD (k % c) ChannelState.zero) (lowNibble s.inByte)
    let bs' := bs.set (k % c) r.1
    let q := decodeSample s.straps.variant (bs'.getD ((k + 1) % c) ChannelState.zero) (highNibble s.inByte)
    State.blockByte c k (bs, s) =
      (bs'.set ((k + 1) % c) q.1,
        { s with
          inCur := s.inCur + 1
          out := s.out ++ [⟨BitVec.ofNat 8 (k % c), r.2⟩, ⟨BitVec.ofNat 8 ((k + 1) % c), q.2⟩] }) := by
  simp [State.blockByte, State.blockCode, State.advance, State.outAppend]

/-- THE BLOCK LOOP: the remaining `n` bytes are decoded round-robin over the scratch file (42_block_decoder.md R102). -/
theorem State.blockRun_eq (c n k : Nat) (bs : List ChannelState) (s : State) (hn : n ≤ s.inAvail) :
    (State.blockRun c n k (bs, s)).2 =
      { s with
        inCur := s.inCur + BitVec.ofNat 32 n
        out := s.out ++ decodeRoundRobin s.straps.variant c k bs (blockCodes (s.upcoming n)) } := by
  induction n generalizing s k bs with
  | zero => simp [State.blockRun, State.upcoming, Memory.bytesAt, blockCodes, decodeRoundRobin]
  | succ n ih =>
    have hav := State.inAvail_advance hn
    rw [State.blockRun, State.blockByte_eq, ih _ _ _ (by simp only [State.inAvail, State.advance] at *; omega),
      State.upcoming_succ s n hn]
    simp only [blockCodes, decodeRoundRobin]
    congr 1
    · exact cursor_one s.inCur n
    · simp only [List.append_assoc, List.cons_append, List.nil_append]
      rfl

theorem decodeRoundRobin_sink (v : Variant) (c k nch : Nat) (bs : List ChannelState) (codes : List Code) (hc : 0 < c)
    (hle : c ≤ nch) (hn : nch ≤ 256) :
    ∀ e ∈ decodeRoundRobin v c k bs codes, e.chan.toNat < nch ∧ predictorFloor v ≤ e.sample.toInt := by
  induction codes generalizing k bs with
  | nil => intro e h; exact absurd h (by simp [decodeRoundRobin])
  | cons s rest ih =>
    intro e h
    simp only [decodeRoundRobin, List.mem_cons] at h
    rcases h with rfl | h
    · have hk := Nat.mod_lt k hc
      exact ⟨by simp only [BitVec.toNat_ofNat]; omega, decodeSample_floor ..⟩
    · exact ih _ _ e h

end Sys2Proof.Machine
end

