-- ==== Sys2Proof/Laws/Frame.lean ====
section
/-! SUPPORT. What the loops leave alone, from every state, and that every operation keeps the invariant. -/

namespace Sys2Proof.Machine

/-- What a command can never change, and that the sink only grows: the frame every loop keeps. -/
structure State.Extends (s t : State) : Prop where
  straps : t.straps = s.straps
  length : t.ch.length = s.ch.length
  inBuf : t.inBuf = s.inBuf
  inLen : t.inLen = s.inLen
  pending : t.pending = s.pending
  responses : t.responses = s.responses
  drained : t.drained = s.drained
  out : ∃ es, t.out = s.out ++ es

theorem State.Extends.refl (s : State) : State.Extends s s := by
  constructor <;> first | rfl | exact ⟨[], by simp⟩

theorem State.Extends.trans {s t u : State} (h : State.Extends s t) (k : State.Extends t u) : State.Extends s u := by
  obtain ⟨es, he⟩ := h.out
  obtain ⟨fs, hf⟩ := k.out
  exact ⟨k.straps.trans h.straps, k.length.trans h.length, k.inBuf.trans h.inBuf, k.inLen.trans h.inLen,
    k.pending.trans h.pending, k.responses.trans h.responses, k.drained.trans h.drained,
    ⟨es ++ fs, by rw [hf, he, List.append_assoc]⟩⟩

theorem State.extends_advance (s : State) : State.Extends s s.advance := by
  constructor <;> first | rfl | exact ⟨[], by simp⟩

theorem State.extends_writeCh (s : State) (c : Nat) (st : ChannelState) : State.Extends s (s.writeCh c st) := by
  constructor <;> first | rfl | simp

theorem State.extends_outAppend (s : State) (c : Nat) (x : Sample) : State.Extends s (s.outAppend c x) := by
  constructor <;> first | rfl | exact ⟨_, rfl⟩

theorem State.extends_pastPreamble (s : State) : State.Extends s s.pastPreamble := by
  constructor <;> first | rfl | exact ⟨[], by simp⟩

theorem State.extends_decodeOne (emit : Bool) (c : Nat) (s : State) : State.Extends s (s.decodeOne emit c) := by
  have h := (State.extends_advance s).trans (State.extends_writeCh s.advance c (decodeByte s.straps (s.readCh c) s.inByte).1)
  cases emit
  · exact h
  · exact (h.trans (State.extends_outAppend _ c _)).trans (State.extends_outAppend _ c _)

theorem State.extends_decodeRun (emit : Bool) (c n : Nat) (s : State) :
    State.Extends s (State.decodeRun emit c n s) := by
  induction n generalizing s with
  | zero => exact .refl s
  | succ n ih => exact (State.extends_decodeOne emit c s).trans (ih _)

theorem State.extends_seedRun (m c : Nat) (s : State) : State.Extends s (State.seedRun m c s) := by
  induction m generalizing s c with
  | zero => exact .refl s
  | succ m ih => exact ((State.extends_pastPreamble s).trans (State.extends_writeCh _ c _)).trans (ih _ _)

theorem State.extends_blockPreambles (m : Nat) (s : State) : State.Extends s (State.blockPreambles m s).2 := by
  induction m generalizing s with
  | zero => exact .refl s
  | succ m ih => exact (State.extends_pastPreamble s).trans (ih _)

theorem State.extends_blockRun (c n k : Nat) (bs : List ChannelState × State) :
    State.Extends bs.2 (State.blockRun c n k bs).2 := by
  induction n generalizing bs k with
  | zero => exact .refl bs.2
  | succ n ih =>
    refine .trans ?_ (ih (k + 2) (State.blockByte c k bs))
    exact ((State.extends_advance bs.2).trans (State.extends_outAppend _ _ _)).trans (State.extends_outAppend _ _ _)

/-! ### Channels other than the one named, and the sink of a skip -/

theorem State.readCh_decodeOne_ne (emit : Bool) {c d : Nat} (s : State) (h : d ≠ c) :
    (s.decodeOne emit c).readCh d = s.readCh d := by
  cases emit <;> exact State.readCh_writeCh_ne s.advance _ h

theorem State.readCh_decodeRun_ne (emit : Bool) {c d : Nat} (n : Nat) (s : State) (h : d ≠ c) :
    (State.decodeRun emit c n s).readCh d = s.readCh d := by
  induction n generalizing s with
  | zero => rfl
  | succ n ih => exact (ih _).trans (State.readCh_decodeOne_ne emit s h)

theorem State.out_skipRun (c n : Nat) (s : State) : (State.decodeRun false c n s).out = s.out := by
  induction n generalizing s with
  | zero => rfl
  | succ n ih => exact ih _

theorem State.out_seedRun (m c : Nat) (s : State) : (State.seedRun m c s).out = s.out := by
  induction m generalizing s c with
  | zero => rfl
  | succ m ih => exact ih _ _

theorem State.ch_blockPreambles (m : Nat) (s : State) : (State.blockPreambles m s).2.ch = s.ch := by
  induction m generalizing s with
  | zero => rfl
  | succ m ih => exact ih _

theorem State.ch_blockRun (c n k : Nat) (bs : List ChannelState × State) : (State.blockRun c n k bs).2.ch = bs.2.ch := by
  induction n generalizing bs k with
  | zero => rfl
  | succ n ih => exact ih _ _

/-! ### Operations keep the invariant -/

theorem mem_set_index_le {l : List ChannelState} {c : Nat} {st : ChannelState} (h : ∀ x ∈ l, x.stepIndex.toNat ≤ 88)
    (hst : st.stepIndex.toNat ≤ 88) : ∀ x ∈ l.set c st, x.stepIndex.toNat ≤ 88 := by
  intro x hx
  rcases List.mem_or_eq_of_mem_set hx with h' | rfl
  · exact h x h'
  · exact hst

theorem State.Inv.writeCh {s : State} (h : s.Inv) (c : Nat) {st : ChannelState} (hst : st.stepIndex.toNat ≤ 88) :
    (s.writeCh c st).Inv where
  channels := by simpa using h.channels
  indices := mem_set_index_le h.indices hst
  buffer := h.buffer
  bounds := h.bounds
  sink := h.sink
  responses := h.responses

theorem State.Inv.setCursor {s : State} (h : s.Inv) (pos : Nat) : (s.setCursor pos).Inv :=
  ⟨h.channels, h.indices, h.buffer, h.bounds, h.sink, h.responses⟩

theorem State.Inv.advance {s : State} (h : s.Inv) : s.advance.Inv :=
  ⟨h.channels, h.indices, h.buffer, h.bounds, h.sink, h.responses⟩

theorem State.Inv.pastPreamble {s : State} (h : s.Inv) : s.pastPreamble.Inv :=
  ⟨h.channels, h.indices, h.buffer, h.bounds, h.sink, h.responses⟩

theorem State.Inv.withPending {s : State} (h : s.Inv) (rest : List HostAction) : (s.withPending rest).Inv :=
  ⟨h.channels, h.indices, h.buffer, h.bounds, h.sink, h.responses⟩

theorem State.Inv.respond {s : State} (h : s.Inv) {k : Status} {v : Word} (hv : k ≠ .ok → v = 0) :
    (s.respond k v).Inv where
  channels := h.channels
  indices := h.indices
  buffer := h.buffer
  bounds := h.bounds
  sink := h.sink
  responses := by
    intro r hr hk
    simp only [State.respond_responses, List.mem_append, List.mem_singleton] at hr
    rcases hr with hr | rfl
    · exact h.responses r hr hk
    · exact hv hk

theorem nch_le (p : Straps) : 1 ≤ p.nch ∧ p.nch ≤ 256 := by
  have := p.lastChannel.isLt
  unfold Straps.nch
  omega

theorem State.Inv.outAppend {s : State} (h : s.Inv) {c : Nat} {x : Sample} (hc : c < s.straps.nch)
    (hx : predictorFloor s.straps.variant ≤ x.toInt) : (s.outAppend c x).Inv where
  channels := h.channels
  indices := h.indices
  buffer := h.buffer
  bounds := h.bounds
  sink := by
    have := nch_le s.straps
    intro e he
    simp only [State.outAppend_out, List.mem_append, List.mem_singleton] at he
    rcases he with he | rfl
    · exact h.sink e he
    · exact ⟨by simp only [BitVec.toNat_ofNat, State.outAppend_straps]; omega, hx⟩
  responses := h.responses

theorem State.Inv.decodeOne {s : State} (h : s.Inv) (emit : Bool) {c : Nat} (hc : c < s.straps.nch) :
    (s.decodeOne emit c).Inv := by
  have hw := h.advance.writeCh c (decodeByte_index_le s.straps (s.readCh c) s.inByte)
  have hf := decodeByte_floor s.straps (s.readCh c) s.inByte
  cases emit
  · exact hw
  · exact (hw.outAppend (c := c) hc hf.1).outAppend (c := c) hc hf.2

theorem State.Inv.decodeRun {s : State} (h : s.Inv) (emit : Bool) {c : Nat} (hc : c < s.straps.nch) (n : Nat) :
    (State.decodeRun emit c n s).Inv := by
  induction n generalizing s with
  | zero => exact h
  | succ n ih =>
    exact ih (h.decodeOne emit hc) (by rw [(State.extends_decodeOne emit c s).straps]; exact hc)

theorem State.Inv.seedRun {s : State} (h : s.Inv) (m c : Nat) : (State.seedRun m c s).Inv := by
  induction m generalizing s c with
  | zero => exact h
  | succ m ih => exact ih (h.pastPreamble.writeCh c (installPreamble_index_le ..)) _

theorem State.Inv.blockPreambles {s : State} (h : s.Inv) (m : Nat) : (State.blockPreambles m s).2.Inv := by
  induction m generalizing s with
  | zero => exact h
  | succ m ih => exact ih h.pastPreamble

theorem State.Inv.blockRun {bs : List ChannelState × State} (h : bs.2.Inv) (n k : Nat) {c : Nat} (hc : 0 < c)
    (hn : c ≤ bs.2.straps.nch) : (State.blockRun c n k bs).2.Inv := by
  induction n generalizing bs k with
  | zero => exact h
  | succ n ih =>
    have lt : ∀ j, j % c < bs.2.straps.nch := fun j => lt_of_lt_of_le (Nat.mod_lt j hc) hn
    have h1 := h.advance.outAppend (c := k % c) (lt k) (decodeSample_floor bs.2.straps.variant
      (bs.1.getD (k % c) ChannelState.zero) (lowNibble bs.2.inByte))
    have h2 := h1.outAppend (c := (k + 1) % c) (lt (k + 1)) (decodeSample_floor bs.2.straps.variant
      (((bs.1.set (k % c) (decodeSample bs.2.straps.variant (bs.1.getD (k % c) ChannelState.zero) (lowNibble bs.2.inByte)).1)).getD
        ((k + 1) % c) ChannelState.zero) (highNibble bs.2.inByte))
    exact ih (bs := State.blockByte c k bs) h2 (k + 2) hn

theorem State.Inv.drainOut {s : State} (h : s.Inv) : s.drainOut.Inv :=
  ⟨h.channels, h.indices, h.buffer, h.bounds, by simp, h.responses⟩

theorem State.Inv.takeFront {s : State} (h : s.Inv) (n : Nat) : (s.takeFront n).Inv :=
  ⟨h.channels, h.indices, h.buffer, h.bounds, fun e he => h.sink e (List.mem_of_mem_drop he), h.responses⟩

/-- Draining is taking every entry. -/
theorem State.drainOut_eq_takeFront (s : State) : s.drainOut = s.takeFront s.out.length := by
  simp [State.drainOut, State.takeFront]

theorem State.Inv.applyReset {s : State} (h : s.Inv) (p : Straps) : (s.applyReset p).Inv where
  channels := by simp [resetChannels]
  indices := by
    intro st hst
    simp only [State.applyReset_ch, resetChannels, List.mem_replicate] at hst
    rw [hst.2]
    decide
  buffer := rfl
  bounds := rfl
  sink := by simp
  responses := h.responses

theorem State.Inv.loadInput {s : State} (h : s.Inv) {bytes : List Byte} (hb : bytes.length ≤ maxInputLength) :
    (s.loadInput bytes).Inv where
  channels := h.channels
  indices := h.indices
  buffer := Memory.wf_ofBytes bytes
  bounds := by
    have hl := Memory.below_ofBytes bytes 0
    have : (BitVec.ofNat 32 bytes.length).toNat = bytes.length := by
      unfold maxInputLength at hb
      simp only [BitVec.toNat_ofNat]
      omega
    simpa [this] using hl
  sink := h.sink
  responses := h.responses

end Sys2Proof.Machine
end

