-- ==== Sys2Proof/Laws/Exec.lean ====
section
/-! SUPPORT. What a command can do, said once: if `exec` answers a next state, it is one of these effects with its response. -/

namespace Sys2Proof.Machine

theorem State.onChannel_of_lt {s : State} {c : Nat} {b : Result} (h : c < s.straps.nch) : s.onChannel c b = b := by
  simp [State.onChannel, Nat.not_le.mpr h]

theorem State.onChannel_of_le {s : State} {c : Nat} {b : Result} (h : s.straps.nch ≤ c) :
    s.onChannel c b = .next (s.respond .invalidChannel 0) := by
  simp [State.onChannel, h, State.raise]

theorem State.onChannel_next {s t : State} {c : Nat} {b : Result} (h : s.onChannel c b = .next t) :
    (s.straps.nch ≤ c ∧ t = s.respond .invalidChannel 0) ∨ (c < s.straps.nch ∧ b = .next t) := by
  unfold State.onChannel State.raise at h
  split at h
  · injection h with h
    exact .inl ⟨‹_›, h.symm⟩
  · exact .inr ⟨by omega, h⟩

/-- `CommandEffect i s u r`: command `i` from `s` leaves `u` (before its response) and answers `r`. An error leaves `s`. -/
inductive CommandEffect : Instr → State → State → Response → Prop where
  | seed {c : Nat} {pred idx : Int} {s : State} (hc : c < s.straps.nch) :
    CommandEffect (.seed c pred idx) s (s.writeCh c (installPreamble s.straps pred idx)) ⟨.ok, s.inCur⟩
  | seedBytes {s : State} (hn : 4 * s.straps.nch ≤ s.inAvail) :
    CommandEffect .seedBytes s (State.seedRun s.straps.nch 0 s) ⟨.ok, (State.seedRun s.straps.nch 0 s).inCur⟩
  | parse {c n : Nat} {s : State} (hc : c < s.straps.nch) (hn : n ≤ s.inAvail) :
    CommandEffect (.parse c n) s (State.decodeRun true c n s) ⟨.ok, (State.decodeRun true c n s).inCur⟩
  | parseBlocks {c k : Nat} {s : State} (hc : c < s.straps.nch) (hk : k ≤ s.inAvail / 4 ∨ s.inAvail % 4 = 0) :
    CommandEffect (.parseBlocks c k) s (State.decodeRun true c (4 * min k (s.inAvail / 4)) s)
      ⟨.ok, (State.decodeRun true c (4 * min k (s.inAvail / 4)) s).inCur⟩
  | skip {c n : Nat} {s : State} (hc : c < s.straps.nch) (hn : n ≤ s.inAvail) :
    CommandEffect (.skip c n) s (State.decodeRun false c n s) ⟨.ok, (State.decodeRun false c n s).inCur⟩
  | getState {c : Nat} {s : State} (hc : c < s.straps.nch) :
    CommandEffect (.getState c) s s ⟨.ok, (s.readCh c).snapshot⟩
  | setState {c : Nat} {pred : Int} {idx : Nat} {s : State} (hc : c < s.straps.nch) (hi : idx ≤ 88) :
    CommandEffect (.setState c pred idx) s (s.writeCh c ⟨BitVec.ofInt 16 pred, BitVec.ofNat 7 idx⟩) ⟨.ok, s.inCur⟩
  | blockDecode {c : Nat} {s : State} (h1 : 1 ≤ c) (hc : c ≤ s.straps.nch) (hn : 4 * c ≤ s.inAvail) :
    CommandEffect (.blockDecode c) s
      (State.blockRun c (State.blockPreambles c s).2.inAvail 0 (State.blockPreambles c s)).2
      ⟨.ok, (State.blockRun c (State.blockPreambles c s).2.inAvail 0 (State.blockPreambles c s)).2.inCur⟩
  | seek {pos : Nat} {s : State} : CommandEffect (.seek pos) s (s.setCursor pos) ⟨.ok, BitVec.ofNat 32 pos⟩
  | error {i : Instr} {s : State} {k : Status} (hk : k ≠ .ok) : CommandEffect i s s ⟨k, 0⟩

/-- WHAT A COMMAND CAN DO: if it answers a next state, that state is one of its effects with its response delivered. -/
theorem exec_next_effect {i : Instr} {s t : State} (h : exec i s = .next t) :
    ∃ u r, CommandEffect i s u r ∧ t = u.respond r.status r.val := by
  cases i with
  | seed c p i =>
    rcases State.onChannel_next h with ⟨hc, rfl⟩ | ⟨hc, h⟩
    · exact ⟨_, _, .error (k := .invalidChannel) (by decide), rfl⟩
    · injection h with h; exact ⟨_, _, .seed hc, h.symm⟩
  | seedBytes =>
    simp only [exec, execSeedBytes] at h
    split at h
    · cases h
    · injection h with h; exact ⟨_, _, .seedBytes (by omega), h.symm⟩
  | parse c n =>
    rcases State.onChannel_next h with ⟨hc, rfl⟩ | ⟨hc, h⟩
    · exact ⟨_, _, .error (k := .invalidChannel) (by decide), rfl⟩
    · split at h
      · cases h
      · injection h with h; exact ⟨_, _, .parse hc (by omega), h.symm⟩
  | parseBlocks c n =>
    rcases State.onChannel_next h with ⟨hc, rfl⟩ | ⟨hc, h⟩
    · exact ⟨_, _, .error (k := .invalidChannel) (by decide), rfl⟩
    · split at h
      · cases h
      · injection h with h; exact ⟨_, _, .parseBlocks hc (by omega), h.symm⟩
  | skip c n =>
    rcases State.onChannel_next h with ⟨hc, rfl⟩ | ⟨hc, h⟩
    · exact ⟨_, _, .error (k := .invalidChannel) (by decide), rfl⟩
    · split at h
      · cases h
      · injection h with h; exact ⟨_, _, .skip hc (by omega), h.symm⟩
  | getState c =>
    rcases State.onChannel_next h with ⟨hc, rfl⟩ | ⟨hc, h⟩
    · exact ⟨_, _, .error (k := .invalidChannel) (by decide), rfl⟩
    · injection h with h; exact ⟨_, _, .getState hc, h.symm⟩
  | setState c p i =>
    rcases State.onChannel_next h with ⟨hc, rfl⟩ | ⟨hc, h⟩
    · exact ⟨_, _, .error (k := .invalidChannel) (by decide), rfl⟩
    · split at h
      · cases h
      · injection h with h; exact ⟨_, _, .setState hc (by omega), h.symm⟩
  | blockDecode c =>
    simp only [exec, execBlockDecode] at h
    split at h
    · injection h with h; exact ⟨_, _, .error (k := .illegalCommand) (by decide), h.symm⟩
    · split at h
      · cases h
      · injection h with h; exact ⟨_, _, .blockDecode (by omega) (by omega) (by omega), h.symm⟩
  | encodeStub => injection h with h; exact ⟨_, _, .error (k := .notImplemented) (by decide), h.symm⟩
  | seek p => injection h with h; exact ⟨_, _, .seek, h.symm⟩

/-- No command touches a strap, the input buffer, the host's program or the drained entries; the sink only grows. -/
theorem CommandEffect.extends {i : Instr} {s u : State} {r : Response} (h : CommandEffect i s u r) : State.Extends s u := by
  cases h with
  | seed => exact State.extends_writeCh ..
  | seedBytes => exact State.extends_seedRun ..
  | parse => exact State.extends_decodeRun ..
  | parseBlocks => exact State.extends_decodeRun ..
  | skip => exact State.extends_decodeRun ..
  | getState => exact .refl _
  | setState => exact State.extends_writeCh ..
  | blockDecode => exact (State.extends_blockPreambles _ _).trans (State.extends_blockRun ..)
  | seek => constructor <;> first | rfl | exact ⟨[], by simp⟩
  | error => exact .refl _

theorem CommandEffect.error_eq {i : Instr} {s u : State} {r : Response} (h : CommandEffect i s u r) (hr : r.status ≠ .ok) :
    u = s ∧ r.val = 0 := by
  cases h <;> simp at hr ⊢

/-- Every command's effect keeps the invariant. -/
theorem CommandEffect.inv {i : Instr} {s u : State} {r : Response} (h : CommandEffect i s u r) (hs : s.Inv) : u.Inv := by
  cases h with
  | seed => exact hs.writeCh _ (installPreamble_index_le ..)
  | seedBytes => exact hs.seedRun ..
  | parse hc => exact hs.decodeRun _ hc _
  | parseBlocks hc => exact hs.decodeRun _ hc _
  | skip hc => exact hs.decodeRun _ hc _
  | getState => exact hs
  | setState _ hi => exact hs.writeCh _ (by simp only [BitVec.toNat_ofNat]; omega)
  | blockDecode h1 hc =>
    exact (hs.blockPreambles _).blockRun _ _ h1 (by rw [(State.extends_blockPreambles _ s).straps]; exact hc)
  | seek => exact hs.setCursor _
  | error => exact hs

end Sys2Proof.Machine
end

