-- ==== Sys2Proof/Laws/PerInstr.lean ====
section
/-! SUPPORT. Facts about every command, one lemma per constructor. -/

namespace Sys2Proof.Laws.DecodeEncode

/-- Decoding the encoder's word of a well-formed command gives the command back. -/
def Statement (i : Instr) : Prop := i.wellFormed = true → decode (encode i) = .ok i

theorem seed (ch : Nat) (pred idx : Int) : Statement (.seed ch pred idx) := by
  intro h
  simp only [Instr.wellFormed, Bool.and_eq_true] at h
  simp only [encode, decode_pack, decodeFields_seed, argLow_pair, argHigh_pair, toNat_channelField h.1.1, toInt_signed16 h.1.2,
    toInt_signed16 h.2]

theorem seedBytes : Statement .seedBytes := by
  intro _
  simp only [encode, decode_pack, decodeFields_seedBytes]

theorem parse (ch n : Nat) : Statement (.parse ch n) := by
  intro h
  simp only [Instr.wellFormed, Bool.and_eq_true] at h
  simp only [encode, decode_pack, decodeFields_parse, toNat_channelField h.1, toNat_unsigned32 h.2]

theorem parseBlocks (ch k : Nat) : Statement (.parseBlocks ch k) := by
  intro h
  simp only [Instr.wellFormed, Bool.and_eq_true] at h
  simp only [encode, decode_pack, decodeFields_parseBlocks, toNat_channelField h.1, toNat_unsigned32 h.2]

theorem skip (ch n : Nat) : Statement (.skip ch n) := by
  intro h
  simp only [Instr.wellFormed, Bool.and_eq_true] at h
  simp only [encode, decode_pack, decodeFields_skip, toNat_channelField h.1, toNat_unsigned32 h.2]

theorem getState (ch : Nat) : Statement (.getState ch) := by
  intro h
  simp only [Instr.wellFormed] at h
  simp only [encode, decode_pack, decodeFields_getState, toNat_channelField h]

theorem setState (ch : Nat) (pred : Int) (idx : Nat) : Statement (.setState ch pred idx) := by
  intro h
  simp only [Instr.wellFormed, Bool.and_eq_true] at h
  simp only [encode, decode_pack, decodeFields_setState, argLow_pair, argHigh_pair, toNat_channelField h.1.1, toInt_signed16 h.1.2,
    toNat_unsigned16 h.2]

theorem blockDecode (c : Nat) : Statement (.blockDecode c) := by
  intro h
  simp only [Instr.wellFormed] at h
  simp only [encode, decode_pack, decodeFields_blockDecode, toNat_unsigned32 h]

theorem encodeStub : Statement .encodeStub := by
  intro _
  simp only [encode, decode_pack, decodeFields_encodeStub]

theorem seek (pos : Nat) : Statement (.seek pos) := by
  intro h
  simp only [Instr.wellFormed] at h
  simp only [encode, decode_pack, decodeFields_seek, toNat_unsigned32 h]

end Sys2Proof.Laws.DecodeEncode
end

