-- ==== Sys2Proof/Laws/Step.lean ====
section
/-! SUPPORT. What a step can do, said once: the effect of an issued word, the program moving on, and how a run ends. -/

namespace Sys2Proof.Machine

/-- WHAT AN ISSUED WORD CAN DO: a command's effect, or an error that leaves the state, with its response delivered. -/
theorem issueCommand_next_effect {w : Command} {s t : State} (h : issueCommand w s = .next t) :
    ∃ i u r, CommandEffect i s u r ∧ t = u.respond r.status r.val := by
  unfold issueCommand at h
  split at h
  · exact ⟨_, exec_next_effect h⟩
  · injection h with h
    exact ⟨.encodeStub, _, _, .error (k := .illegalCommand) (by decide), h.symm⟩

/-- A host action leaves the rest of the program alone. -/
theorem performAction_pending {a : HostAction} {s t : State} (h : performAction a s = .next t) : t.pending = s.pending := by
  cases a with
  | reset _ => injection h with h; rw [← h]; rfl
  | loadInput _ =>
    simp only [performAction] at h
    split at h
    · cases h
    · injection h with h; rw [← h]; rfl
  | issue w =>
    obtain ⟨_, _, _, he, rfl⟩ := issueCommand_next_effect h
    exact he.extends.pending
  | readOutput => injection h with h; rw [h]
  | drain => injection h with h; rw [← h]; rfl
  | takeFront _ => injection h with h; rw [← h]; rfl

/-- A host action delivers one response exactly when it sends a command. -/
theorem performAction_responses {a : HostAction} {s t : State} (h : performAction a s = .next t) :
    ∃ rs, t.responses = s.responses ++ rs ∧ rs.length = if a.isCommand then 1 else 0 := by
  cases a with
  | reset _ => injection h with h; exact ⟨[], by rw [← h]; simp, rfl⟩
  | loadInput _ =>
    simp only [performAction] at h
    split at h
    · cases h
    · injection h with h; exact ⟨[], by rw [← h]; simp, rfl⟩
  | issue w =>
    obtain ⟨_, _, r, he, rfl⟩ := issueCommand_next_effect h
    exact ⟨[r], by rw [← he.extends.responses]; rfl, rfl⟩
  | readOutput => injection h with h; exact ⟨[], by rw [← h]; simp, rfl⟩
  | drain => injection h with h; exact ⟨[], by rw [← h]; simp, rfl⟩
  | takeFront _ => injection h with h; exact ⟨[], by rw [← h]; simp, rfl⟩

/-- A step with a program left is its first action. -/
theorem step_cons {s : State} {a : HostAction} {rest : List HostAction} (h : s.pending = a :: rest) :
    step s = performAction a (s.withPending rest) := by
  simp [step, h]

theorem State.runOver_iff {s : State} : s.runOver = true ↔ ∀ w, HostAction.issue w ∉ s.pending := by
  simp only [State.runOver, Bool.not_eq_true', List.any_eq_false]
  constructor
  · exact fun h w hw => absurd rfl (h _ hw)
  · intro h a ha
    cases a <;> first | exact absurd ha (h _) | exact Bool.false_ne_true

theorem State.result?_of_over {s : State} (h : s.runOver = true) : s.result? = some s.resultNow := by
  unfold State.result? runToEnd
  simp [h]

/-- A run that is not over goes on with its next step. -/
theorem State.result?_of_next {s t : State} (hs : s.runOver = false) (h : step s = .next t) : s.result? = t.result? := by
  cases hp : s.pending with
  | nil => simp [State.runOver, hp] at hs
  | cons a rest =>
    have ht : t.pending = rest := performAction_pending (step_cons hp ▸ h)
    simp only [State.result?, hp, ht, List.length_cons]
    rw [runToEnd]
    simp [hs, h]

end Sys2Proof.Machine
end

