-- ==== Sys2Proof/Tests/Slice0.lean ====
section
/-! SUPPORT. Small tests. Every expected value is the spec's own (95_test_vectors.md, or the rule named), not the model's answer.
The second half gives, for each statement with hypotheses, a concrete input that meets them (`witness_…`). -/

namespace Sys2Proof.Tests

open Sys2Proof.Machine

/-! ### Helpers -/

/-- Straps `VARIANT / NIBBLE_ORDER / NCH - 1`, `PREAMBLE_PRED_CLAMP = 0`. -/
def strapsOf (v : Variant) (o : NibbleOrder) (last : Fin 256) : Straps := ⟨v, o, last, false⟩

/-- A channel state `(predictor, step_index)`. -/
def chan (pred : Int) (idx : Nat) : ChannelState := ⟨BitVec.ofInt 16 pred, BitVec.ofNat 7 idx⟩

/-- A machine with these straps, channel states and input bytes, the cursor at 0 and nothing else. -/
def machine (p : Straps) (ch : List ChannelState) (bytes : List Byte) : State :=
  ({ State.reset with straps := p, ch := ch }).loadInput bytes

/-- One channel, IMA, LOW_FIRST. -/
def machine1 (ch : ChannelState) (bytes : List Byte) : State := machine (strapsOf .ima .lowFirst 0) [ch] bytes

/-- Two channels, IMA, LOW_FIRST. -/
def machine2 (bytes : List Byte) : State := machine (strapsOf .ima .lowFirst 1) [chan 100 20, chan (-7) 88] bytes

/-- The samples appended, when all is well. -/
def samples (r : Result) : Option (List Int) := (nextState? r).map (fun t => t.out.map (fun e => e.sample.toInt))

/-- The sink entries, when all is well. -/
def entries (r : Result) : Option (List (Nat × Int)) :=
  (nextState? r).map (fun t => t.out.map (fun e => (e.chan.toNat, e.sample.toInt)))

/-- The channel states left, when all is well. -/
def channels (r : Result) : Option (List (Int × Nat)) :=
  (nextState? r).map (fun t => t.ch.map (fun st => (st.predictor.toInt, st.stepIndex.toNat)))

/-- The response words delivered, when all is well. -/
def answers (r : Result) : Option (List (BitVec 64)) := (nextState? r).map (fun t => t.responses.map Response.word)

/-- The fault, if the outcome is one. -/
def faultOf : Result → Option Fault
  | .next _ => none
  | .fault f => some f
  | .refused _ => none

/-- The refusal, if the outcome is one. -/
def refusalOf : Result → Option Refusal
  | .next _ => none
  | .fault _ => none
  | .refused r => some r

/-! ### WellFormed refuses an operand its field cannot spell (R60, R62) -/

theorem test_wf_channel_refused : (Instr.getState 256).wellFormed = false := by decide
theorem test_wf_signed_refused : (Instr.seed 0 32768 0).wellFormed = false ∧ (Instr.seed 0 0 (-32769)).wellFormed = false := by
  decide
theorem test_wf_index_field_refused : (Instr.setState 0 0 65536).wellFormed = false := by decide
theorem test_wf_count_refused :
    (Instr.parse 0 4294967296).wellFormed = false ∧ (Instr.seek 4294967296).wellFormed = false ∧
    (Instr.blockDecode 4294967296).wellFormed = false := by decide
theorem test_wf_rest_refused :
    (Instr.parse 256 0).wellFormed = false ∧ (Instr.parseBlocks 256 0).wellFormed = false ∧
    (Instr.parseBlocks 0 4294967296).wellFormed = false ∧ (Instr.skip 256 0).wellFormed = false ∧
    (Instr.skip 0 4294967296).wellFormed = false ∧ (Instr.seed 256 0 0).wellFormed = false ∧
    (Instr.setState 256 0 0).wellFormed = false ∧ (Instr.setState 0 (-32769) 0).wellFormed = false := by decide

/-! ### Decoding: words written out from R60, R62, R63 and R72 -/

theorem test_decode_seed : decode 0x010000000064FFF6 = .ok (.seed 0 (-10) 100) := rfl
theorem test_decode_seed_negative_index : decode 0x01000000FFFF0010 = .ok (.seed 0 16 (-1)) := rfl
theorem test_decode_seedBytes : decode 0x02FF0000FFFFFFFF = .ok .seedBytes := rfl
theorem test_decode_parse : decode 0x0301000000000003 = .ok (.parse 1 3) := rfl
theorem test_decode_parseBlocks : decode 0x0400000000000002 = .ok (.parseBlocks 0 2) := rfl
theorem test_decode_skip : decode 0x05FF000080000001 = .ok (.skip 255 0x80000001) := rfl
theorem test_decode_getState : decode 0x06010000FFFFFFFF = .ok (.getState 1) := rfl
theorem test_decode_setState : decode 0x070000000007FFF7 = .ok (.setState 0 (-9) 7) := rfl
theorem test_decode_blockDecode : decode 0x08FF000000000002 = .ok (.blockDecode 2) := rfl
theorem test_decode_encode : decode 0x09FF0000FFFFFFFF = .ok .encodeStub := rfl
theorem test_decode_seek : decode 0x0AFF0000FFFFFFFF = .ok (.seek 4294967295) := rfl

/-- V-S10: the reserved words. -/
theorem test_decode_reserved :
    decode 0x0100000100000000 = .error .reservedNotZero ∧ decode 0x0902FFFFFFFFFFFF = .error .reservedNotZero ∧
    decode 0x0000000000000000 = .error (.reservedOpcode 0) ∧ decode 0x0B00000000000000 = .error (.reservedOpcode 0x0B) ∧
    decode 0xFF00000000000000 = .error (.reservedOpcode 0xFF) := ⟨rfl, rfl, rfl, rfl, rfl⟩

/-- V-E: the encoder's words. -/
theorem test_encode_words :
    encode (.seed 1 100 20) = 0x0101000000140064 ∧ encode .seedBytes = 0x0200000000000000 ∧
    encode (.parse 1 3) = 0x0301000000000003 ∧ encode (.parseBlocks 0 2) = 0x0400000000000002 ∧
    encode (.skip 0 1) = 0x0500000000000001 ∧ encode (.getState 1) = 0x0601000000000000 ∧
    encode (.setState 0 (-9) 7) = 0x070000000007FFF7 ∧ encode (.blockDecode 2) = 0x0800000000000002 ∧
    encode .encodeStub = 0x0900000000000000 ∧ encode (.seek 1) = 0x0A00000000000001 := by decide

theorem test_decode_table_word : decodeTableWord 64 0x0400000000000002 = some (.parseBlocks 0 2) := by decide

/-! ### Tables, clamps and operand layouts -/

/-- V-T. -/
theorem test_clampStepIndex :
    [-32768, -1, 0, 44, 88, 89, 96, 32767].map clampStepIndex = [0, 0, 0, 44, 88, 88, 88, 88] := by decide

/-- V-T. -/
theorem test_clampPredictor :
    [-94204, -32769, -32768, 0, 32767, 32768, 94203].map (clampPredictor .ima) =
      [-32768, -32768, -32768, 0, 32767, 32767, 32767] ∧
    [-94204, -32769, -32768, -32767, 32767, 32768].map (clampPredictor .nds) =
      [-32767, -32767, -32767, -32767, 32767, 32767] := by decide

/-- The step sizes that the vectors V-D and R91 name. -/
theorem test_stepSize :
    [0, 1, 3, 8, 30, 40, 70, 80, 85, 86, 87, 88].map (fun i => stepSize (BitVec.ofNat 7 i)) =
      [7, 8, 10, 16, 130, 337, 5894, 15289, 24623, 27086, 29794, 32767] := by decide

/-- R29: strap bits 0 and 1. -/
theorem test_strap_bits :
    variantOfBit 0 = .ima ∧ variantOfBit 1 = .nds ∧ nibbleOrderOfBit 0 = .lowFirst ∧ nibbleOrderOfBit 1 = .highFirst := by
  decide

/-- R64, R68: a response word and a sink entry word; R42: the byte view. -/
theorem test_words :
    (Response.mk .illegalCommand 0).word = 0x0300000000000000 ∧ (Response.mk .ok 7).word = 0x0000000000000007 ∧
    (OutEntry.mk 1 0xFFF7).word = 0x0001FFF7 ∧ outBytes [⟨0, 0xFFF5⟩, ⟨0, 0xFFF7⟩] = [0xF5, 0xFF, 0xF7, 0xFF] := by decide

/-! ### The sample decode -/

/-- One decode as numbers: predictor, step index, sample. -/
def decoded (v : Variant) (pred : Int) (idx s : Nat) : Int × Nat × Int :=
  let r := decodeSample v (chan pred idx) (BitVec.ofNat 4 s)
  (r.1.predictor.toInt, r.1.stepIndex.toNat, r.2.toInt)

/-- V-D1: all codes from `(0, 8)`. -/
theorem test_decodeSample_V_D1 :
    (List.range 16).map (fun s => (decoded .ima 0 8 s).2.2) =
      [2, 6, 10, 14, 18, 22, 26, 30, -2, -6, -10, -14, -18, -22, -26, -30] ∧
    (List.range 16).map (fun s => (decoded .nds 0 8 s).2.1) =
      [7, 7, 7, 7, 10, 12, 14, 16, 7, 7, 7, 7, 10, 12, 14, 16] := by decide

/-- V-D3: separate truncation shows. -/
theorem test_decodeSample_V_D3 :
    (List.range 16).map (fun s => (decoded .ima (-20000) 70 s).1) =
      [-19264, -17791, -16317, -14844, -13370, -11897, -10423, -8950, -20736, -22209, -23683, -25156, -26630, -28103,
        -29577, -31050] := by decide

/-- The corner table of V-D5. -/
theorem test_decodeSample_corners :
    decoded .ima 32767 88 0xF = (-28669, 88, -28669) ∧
    decoded .ima (-32768) 88 0xF = (-32768, 88, -32768) ∧ decoded .nds (-32768) 88 0xF = (-32767, 88, -32767) ∧
    decoded .nds (-32768) 88 0x7 = (28668, 88, 28668) ∧ decoded .nds (-32768) 0 0x8 = (-32767, 0, -32767) ∧
    decoded .ima (-32760) 0 0x9 = (-32761, 0, -32761) ∧ decoded .ima 5 3 0xB = (-3, 2, -3) ∧
    decoded .ima 0 87 0x4 = (32767, 88, 32767) ∧ decoded .nds (-32767) 30 0xC = (-32767, 32, -32767) := by decide

/-! ### Commands -/

/-- V-S5: SEED clamps the index. -/
theorem test_seed_clamps_index :
    channels (exec (.seed 0 (-10) 100) (machine1 (chan 0 0) [])) = some [(-10, 88)] ∧
    channels (exec (.seed 0 16 (-1)) (machine1 (chan 0 0) [])) = some [(16, 0)] := by decide

/-- V-S4: the preamble predictor clamp under NDS. -/
theorem test_seed_predictor_clamp :
    channels (exec (.seed 0 (-32768) 0) (machine ⟨.nds, .lowFirst, 0, false⟩ [chan 0 0] [])) = some [(-32768, 0)] ∧
    channels (exec (.seed 0 (-32768) 0) (machine ⟨.nds, .lowFirst, 0, true⟩ [chan 0 0] [])) = some [(-32767, 0)] := by decide

/-- V-S6. -/
theorem test_seedBytes :
    channels (exec .seedBytes (machine2 [0x10, 0x00, 0x0A, 0x00, 0xF6, 0xFF, 0x64, 0x00])) = some [(16, 10), (-10, 88)] ∧
    answers (exec .seedBytes (machine2 [0x10, 0x00, 0x0A, 0x00, 0xF6, 0xFF, 0x64, 0x00])) = some [0x8] := by decide
theorem test_seedBytes_stuck :
    faultOf (exec .seedBytes (machine2 [0x10, 0x00, 0x0A, 0x00, 0xF6, 0xFF, 0x64])) = some .stuckShortInput := by decide

/-- V-S2: both nibble orders. -/
theorem test_parse_lowFirst :
    samples (exec (.parse 0 4) (machine1 (chan 100 20) [0x3C, 0xA5, 0x19, 0xE2])) =
      some [44, 96, 170, 120, 93, 117, 154, 66] ∧
    channels (exec (.parse 0 4) (machine1 (chan 100 20) [0x3C, 0xA5, 0x19, 0xE2])) = some [(66, 27)] := by decide
theorem test_parse_highFirst :
    samples (exec (.parse 0 4) (machine (strapsOf .ima .highFirst 0) [chan 100 20] [0x3C, 0xA5, 0x19, 0xE2])) =
      some [143, 93, 60, 128, 155, 131, 34, 100] := by decide

/-- V-S7: the early stop, and the partial group. -/
theorem test_parseBlocks_stops_early :
    samples (exec (.parseBlocks 0 5) (machine1 (chan 0 0) [1, 2, 3, 4, 5, 6, 7, 8])) =
      some [1, 1, 4, 4, 8, 8, 15, 16, 27, 28, 45, 47, 78, 82, 78, 81] ∧
    answers (exec (.parseBlocks 0 5) (machine1 (chan 0 0) [1, 2, 3, 4, 5, 6, 7, 8])) = some [0x8] := by decide
theorem test_parseBlocks_partial_group :
    samples (exec (.parseBlocks 0 1) (machine1 (chan 0 0) [1, 2, 3, 4, 5, 6])) = some [1, 1, 4, 4, 8, 8, 15, 16] ∧
    faultOf (exec (.parseBlocks 0 2) (machine1 (chan 0 0) [1, 2, 3, 4, 5, 6])) = some .stuckPartialGroup := by decide

/-- V-S3, P4. -/
theorem test_skip :
    channels (exec (.skip 0 2) (machine1 (chan 100 20) [0x3C, 0xA5, 0x19, 0xE2])) = some [(120, 24)] ∧
    samples (exec (.skip 0 2) (machine1 (chan 100 20) [0x3C, 0xA5, 0x19, 0xE2])) = some [] ∧
    answers (exec (.skip 0 2) (machine1 (chan 100 20) [0x3C, 0xA5, 0x19, 0xE2])) = some [0x2] := by decide
theorem test_skip_stuck : faultOf (exec (.skip 0 1) (machine1 (chan 100 27) [])) = some .stuckShortInput := by decide

/-- V-S8. -/
theorem test_getState : answers (exec (.getState 0) (machine1 (chan (-9) 7) [])) = some [0x7FFF7] := by decide
theorem test_setState :
    channels (exec (.setState 0 (-32768) 88) (machine1 (chan 0 0) [])) = some [(-32768, 88)] := by decide
theorem test_setState_refused :
    refusalOf (exec (.setState 0 0 89) (machine1 (chan 0 0) [])) = some .impossibleSnapshot := by decide

/-- V-S9. -/
theorem test_seek :
    answers (exec (.seek 4) (machine1 (chan 0 0) [])) = some [0x4] ∧
    (nextState? (exec (.seek 7) (machine1 (chan 0 0) [1, 2]))).map State.inAvail = some 0 := by decide

/-- V-B2 and V-B4. -/
theorem test_blockDecode_two_channels :
    entries (exec (.blockDecode 2) (machine2 [0, 0, 0, 0, 0x10, 0, 0x0A, 0, 0x74, 0xF0, 0x21, 0x8C])) =
      some [(0, 7), (1, 50), (0, 8), (1, -26), (0, 11), (1, 29), (0, 4), (1, 19)] ∧
    answers (exec (.blockDecode 2) (machine2 [0, 0, 0, 0, 0x10, 0, 0x0A, 0, 0x74, 0xF0, 0x21, 0x8C])) = some [0xC] := by decide
theorem test_blockDecode_variants_and_edges :
    samples (exec (.blockDecode 1) (machine (strapsOf .nds .highFirst 0) [chan 0 0] [0, 0x80, 0x58, 0, 0x88])) =
      some [-32767, -32767] ∧
    samples (exec (.blockDecode 1) (machine1 (chan 0 0) [0, 0, 0, 0])) = some [] ∧
    faultOf (exec (.blockDecode 1) (machine1 (chan 0 0) [0, 0, 0])) = some .stuckShortInput ∧
    answers (exec (.blockDecode 3) (machine2 [0, 0, 0, 0])) = some [0x0300000000000000] := by decide

theorem test_encode : answers (exec .encodeStub (machine1 (chan 0 0) [])) = some [0x0200000000000000] := by decide

/-- V-S10: the channel check comes before the shortage and before the refusal. -/
theorem test_invalid_channel_first :
    answers (exec (.parse 2 1000) (machine2 [])) = some [0x0100000000000000] ∧
    answers (exec (.setState 2 0 89) (machine2 [])) = some [0x0100000000000000] := by decide

/-! ### The step -/

theorem test_step_runs_the_fetch_word :
    answers (step (State.reset.withFetchWord 64 0x0A00000000000004)) = some [0x4] := by decide

/-- V-S10, through the step. -/
theorem test_step_illegal_word :
    answers (step (State.reset.issueNext 0x0B00000000000000)) = some [0x0300000000000000] := by decide

/-- P1's and P2's first actions: the input, then the straps of a reset. -/
theorem test_step_host_actions :
    (nextState? (step (State.reset.withPending [.loadInput [0x0F, 0x3C]]))).map
      (fun t => (t.inLen.toNat, Memory.bytesAt t.inBuf 0 2)) = some (2, [0x0F, 0x3C]) ∧
    (nextState? (step ((machine2 [1, 2]).withPending [.reset (strapsOf .nds .lowFirst 1)]))).map
      (fun t => (t.straps.variant, t.ch, t.inLen.toNat)) = some (.nds, [chan 0 0, chan 0 0], 0) := by decide

/-! ### Witnesses: concrete inputs that meet each statement's hypotheses, one for each clause -/

/-- Two channels and nine unread bytes. -/
def nine : State := machine2 [0x3C, 0xA5, 0x19, 0xE2, 0x10, 0x00, 0x0A, 0x00, 0x0F]

/-- R27: the host takes one entry from the front; the others stay. -/
theorem test_step_takeFront :
    (nextState? (step { nine with out := [⟨0, 1⟩, ⟨1, 2⟩, ⟨0, 3⟩], pending := [.takeFront 1] })).map
      (fun t => (t.out, t.drained, t.pending)) = some ([⟨1, 2⟩, ⟨0, 3⟩], [⟨0, 1⟩], []) := by decide

/-- R185, with V-S5's SEED: the run is over at the last response, before the reset that follows it. -/
theorem test_run_result :
    (nine.withPending [.issue 0x010000000064FFF6, .reset (strapsOf .ima .lowFirst 0)]).result?.map
      (fun r => (r.responses.length, r.ch.head?)) = some (1, some (chan (-10) 88)) := by decide

/-- Two channels and eight unread bytes. -/
def eight : State := machine2 [0x10, 0x00, 0x0A, 0x00, 0xF6, 0xFF, 0x64, 0x00]

/-- Two channels and seven unread bytes. -/
def seven : State := machine2 [0x10, 0x00, 0x0A, 0x00, 0xF6, 0xFF, 0x64]

/-- 256 channels, the most there can be. -/
def widest : State := State.reset.applyReset ⟨.nds, .highFirst, 255, true⟩

theorem exists_next {r : Result} (h : (nextState? r).isSome = true) : ∃ t, r = .next t := by
  cases r with
  | next t => exact ⟨t, rfl⟩
  | fault _ => cases h
  | refused _ => cases h

theorem nine_inv : nine.Inv := by constructor <;> decide
theorem eight_inv : eight.Inv := by constructor <;> decide
theorem seven_inv : seven.Inv := by constructor <;> decide
theorem widest_inv : widest.Inv where
  channels := List.length_replicate
  indices st h := by rw [List.eq_of_mem_replicate h]; decide
  buffer := by decide
  bounds := by decide
  sink := by decide
  responses := by decide

/-- DecodeEncodeRoundTrip: operands at the ends of their ranges. -/
theorem witness_wellFormed :
    (Instr.seed 255 32767 (-32768)).wellFormed = true ∧ Instr.seedBytes.wellFormed = true ∧
    (Instr.parse 0 4294967295).wellFormed = true ∧ (Instr.parseBlocks 255 4294967295).wellFormed = true ∧
    (Instr.skip 255 0).wellFormed = true ∧ (Instr.getState 255).wellFormed = true ∧
    (Instr.setState 255 (-32768) 65535).wellFormed = true ∧ (Instr.blockDecode 4294967295).wellFormed = true ∧
    Instr.encodeStub.wellFormed = true ∧ (Instr.seek 4294967295).wellFormed = true := by decide

/-- DecodedCommandIsWellFormed, EncodeDecodeClearsIgnoredFields. -/
theorem witness_decoded : ∃ (w : Command) (i : Instr), decode w = .ok i := ⟨0x09FF0000FFFFFFFF, .encodeStub, rfl⟩

/-- CommandFollowsMatchAndMask: the first and the last row. -/
theorem witness_row : (0x01#8 ≤ 0x01#8 ∧ 0x01#8 ≤ 0x0A#8) ∧ (0x01#8 ≤ 0x0A#8 ∧ 0x0A#8 ≤ 0x0A#8) := by decide

/-- CommandOperandsFromFields: a word with `RSV = 0` for the first and the last opcode. -/
theorem witness_operands :
    (0x01FF00007FFF8000#64).extractLsb' 32 16 = 0#16 ∧ (0x01FF00007FFF8000#64).extractLsb' 56 8 = 0x01#8 ∧
    (0x0AFF0000FFFFFFFF#64).extractLsb' 32 16 = 0#16 ∧ (0x0AFF0000FFFFFFFF#64).extractLsb' 56 8 = 0x0A#8 := by decide

/-- StepExecutesIssuedCommand. -/
theorem witness_issued :
    ∃ (s : State) (w : Command) (rest : List HostAction) (i : Instr), s.pending = .issue w :: rest ∧ decode w = .ok i :=
  ⟨nine.withPending [.issue 0x0301000000000003, .drain], 0x0301000000000003, [.drain], .parse 1 3, rfl, rfl⟩

/-- ReservedWordAnswersIllegalCommand: each of the three reasons, at the ends of its range. -/
theorem witness_reserved :
    nine.withPending [.issue 0#64] = { nine with pending := [.issue 0#64] } ∧
    (0x0100000100000000#64).extractLsb' 32 16 ≠ 0#16 ∧ (0x01FF800000000000#64).extractLsb' 32 16 ≠ 0#16 ∧
    (0x00FF0000FFFFFFFF#64).extractLsb' 56 8 = 0#8 ∧ 0x0B#8 ≤ (0x0B00000000000000#64).extractLsb' 56 8 ∧
    0x0B#8 ≤ (0xFF00000000000000#64).extractLsb' 56 8 := by decide

/-- WaitingChangesNothing. -/
theorem witness_waiting : nine.pending = [] := rfl

/-- ResetActionValues, HostReadsAndDrainsOutput, OnlyResetChangesStraps, OneResponsePerIssuedWord: each host action next. -/
theorem witness_host_actions :
    (∃ (s : State) (p : Straps) (rest : List HostAction), s.pending = .reset p :: rest ∧ ∃ t, step s = .next t) ∧
    (∃ (s : State) (rest : List HostAction), s.pending = .readOutput :: rest) ∧
    (∃ (s : State) (rest : List HostAction), s.pending = .drain :: rest) ∧
    (∃ (s : State) (n : Nat) (rest : List HostAction), s.pending = .takeFront n :: rest) ∧
    (∃ (s : State) (w : Command) (rest : List HostAction), s.pending = .issue w :: rest ∧ ∃ t, step s = .next t) :=
  ⟨⟨nine.withPending [.reset (strapsOf .nds .highFirst 255)], _, _, rfl, _, rfl⟩,
   ⟨nine.withPending [.readOutput], _, rfl⟩, ⟨nine.withPending [.drain], _, rfl⟩, ⟨nine.withPending [.takeFront 3], _, _, rfl⟩,
   ⟨nine.withPending [.issue 0x0A00000000000001], _, _, rfl, exists_next (by decide)⟩⟩

/-- RunEndsWithLastResponse: a run with a result, one that is over with a drain left, one that goes on, and one whose next command
is stuck and one whose next command is refused. -/
theorem witness_run :
    (nine.withPending [.issue 0x0301000000000003, .drain]).result?.isSome = true ∧
    (∀ w, HostAction.issue w ∉ (nine.withPending [.drain]).pending) ∧
    (∃ w t, HostAction.issue w ∈ (nine.withPending [.drain, .issue 0x0301000000000003]).pending ∧
      step (nine.withPending [.drain, .issue 0x0301000000000003]) = .next t) ∧
    faultOf (step (nine.withPending [.issue 0x030100000000000A])) = some .stuckShortInput ∧
    refusalOf (step (nine.withPending [.issue 0x0701000000590000])) = some .impossibleSnapshot :=
  ⟨by decide, by (intro w h; cases h with | tail _ h => cases h), ⟨0x0301000000000003, _, .tail _ (.head _), rfl⟩, by decide, by decide⟩

/-- LoadedInputReadsBack: no byte, a buffer that is replaced by a shorter one, and one byte more than a buffer holds. -/
theorem witness_input :
    (∃ (s : State) (bytes : List Byte) (rest : List HostAction),
      s.pending = .loadInput bytes :: rest ∧ bytes.length ≤ 2 ^ 32 - 1) ∧
    (∃ (s : State) (bytes : List Byte) (rest : List HostAction),
      s.pending = .loadInput bytes :: rest ∧ 2 ^ 32 - 1 < bytes.length) :=
  ⟨⟨nine.withPending [.loadInput [0x0F]], _, _, rfl, by decide⟩,
   ⟨nine.withPending [.loadInput (List.replicate (2 ^ 32) 0)], _, _, rfl, by
      rw [List.length_replicate]; decide⟩⟩

/-- StepKeepsInvariant: a decode, and a reset to the widest machine. -/
theorem witness_invariant :
    (nine.withPending [.issue 0x0301000000000003]).Inv ∧
    (∃ t, step (nine.withPending [.issue 0x0301000000000003]) = .next t) ∧
    (∃ t, step (nine.withPending [.reset ⟨.nds, .highFirst, 255, true⟩]) = .next t) :=
  ⟨by constructor <;> decide, exists_next (by decide), ⟨_, rfl⟩⟩

/-- StepIndexClamp: each clause at its ends. -/
theorem witness_clamp : (-1 : Int) < 0 ∧ (89 : Int) ≤ 89 ∧ ((0 : Int) ≤ 0 ∧ (0 : Int) < 89) ∧ ((0 : Int) ≤ 88 ∧ (88 : Int) < 89) := by
  decide

/-- DecodeSampleResult, WorkingValuesFit: the last index of the table. -/
theorem witness_index :
    (chan (-32768) 88).stepIndex.toNat < stepSizeTable.length ∧ (chan (-32768) 88).stepIndex.toNat ≤ 88 := by decide

/-- PreambleInstallsClampedState: both ends of the operand. -/
theorem witness_preamble :
    ((-32768 : Int) ≤ -32768 ∧ (-32768 : Int) ≤ 32767) ∧ ((-32768 : Int) ≤ 32767 ∧ (32767 : Int) ≤ 32767) := by decide

/-- SeedInstallsPreamble, GetStateAnswersSnapshot, InvalidChannelReportedFirst: the last valid channel and the first invalid one,
with two channels and with the most; `widest` has no invalid channel a word can name. -/
theorem witness_channel :
    1 < nine.straps.nch ∧ nine.straps.nch ≤ 2 ∧ 255 < widest.straps.nch ∧
    (Instr.setState 2 0 89).channel? = some 2 := by decide

/-- SeedBytesSeedsEveryChannel: exactly enough bytes, and one fewer. -/
theorem witness_seedBytes :
    (eight.Inv ∧ 4 * eight.straps.nch ≤ eight.inAvail) ∧ (seven.Inv ∧ seven.inAvail < 4 * seven.straps.nch) :=
  ⟨⟨eight_inv, by decide⟩, seven_inv, by decide⟩

/-- ParseDecodesBytes, SkipDecodesAndDiscards, SkipAndParseLeaveSameState: no byte, every byte, one more than there are, and
an invalid channel. -/
theorem witness_parse :
    nine.Inv ∧ (0 < nine.straps.nch ∧ 0 ≤ nine.inAvail) ∧ (1 < nine.straps.nch ∧ 9 ≤ nine.inAvail) ∧
    (1 < nine.straps.nch ∧ nine.inAvail < 10) ∧ nine.straps.nch ≤ 2 :=
  ⟨nine_inv, by decide⟩

/-- ParseBlocksDecodesWholeGroups: all groups there with bytes over, an early stop on a group boundary, a partial group next,
and an invalid channel. ParseBlocksIsParseOfWholeGroups: its two clauses. -/
theorem witness_parseBlocks :
    nine.Inv ∧ eight.Inv ∧ (1 < nine.straps.nch ∧ 2 ≤ nine.inAvail / 4) ∧
    (1 < eight.straps.nch ∧ eight.inAvail % 4 = 0 ∧ eight.inAvail < 4 * 3) ∧
    (1 < nine.straps.nch ∧ nine.inAvail / 4 < 3 ∧ nine.inAvail % 4 ≠ 0) ∧ nine.straps.nch ≤ 2 ∧
    (1 < eight.straps.nch ∧ 4 * 2 ≤ eight.inAvail) :=
  ⟨nine_inv, eight_inv, by decide⟩

/-- SetStateCopiesOrRefuses: index 88, index 89, and an invalid channel. -/
theorem witness_setState :
    nine.Inv ∧ (-32768 : Int) ≤ -32768 ∧ (-32768 : Int) ≤ 32767 ∧ (1 < nine.straps.nch ∧ 88 ≤ 88) ∧
    (1 < nine.straps.nch ∧ 88 < 89) ∧ nine.straps.nch ≤ 2 :=
  ⟨nine_inv, by decide⟩

/-- SeekSetsCursor: the last position. -/
theorem witness_seek : (4294967295 : Nat) < 2 ^ 32 := by decide

/-- BlockDecodeResult, BlockDecodeTagsRoundRobin: as many channels as there are with exactly their preambles, one byte short, no
channel, and one channel too many. -/
theorem witness_blockDecode :
    (1 ≤ 2 ∧ 2 ≤ eight.straps.nch ∧ 4 * 2 ≤ eight.inAvail) ∧ (∃ t, exec (.blockDecode 2) eight = .next t) ∧
    (1 ≤ 2 ∧ 2 ≤ seven.straps.nch ∧ seven.inAvail < 4 * 2) ∧ ((0 : Nat) = 0) ∧ eight.straps.nch < 3 :=
  ⟨by decide, exists_next (by decide), by decide⟩

/-- RoundRobinChannelsDecodeOwnCodes. -/
theorem witness_roundRobin : 2 ≤ 256 ∧ 1 < 2 ∧ [chan 0 0, chan 16 10].length = 2 := by decide

/-- BlockDecodeIsPure: other channels, another nibble order, another place in another buffer. -/
theorem witness_pure :
    let s := machine2 [0x10, 0x00, 0x0A, 0x00, 0x74]
    let s' := (machine (strapsOf .ima .highFirst 0) [chan 5 5] [0xEE, 0x10, 0x00, 0x0A, 0x00, 0x74]).setCursor 1
    1 ≤ 1 ∧ 1 ≤ s.straps.nch ∧ 1 ≤ s'.straps.nch ∧ s.straps.variant = s'.straps.variant ∧
    s.straps.preamblePredClamp = s'.straps.preamblePredClamp ∧ s.inAvail = s'.inAvail ∧
    (∀ i < s.inAvail, Memory.read s.inBuf (s.inCur.toNat + i) = Memory.read s'.inBuf (s'.inCur.toNat + i)) ∧
    (nextState? (exec (.blockDecode 1) s)).isSome = true := by decide

/-- ErrorsChangeNothing. -/
theorem witness_error :
    ∃ (i : Instr) (s t : State) (r : Response), exec i s = .next t ∧ t.responses = s.responses ++ [r] ∧ r.status ≠ .ok :=
  ⟨.blockDecode 3, nine, nine.respond .illegalCommand 0, ⟨.illegalCommand, 0⟩, rfl, rfl, by decide⟩

/-- CommandFrame, WhatCommandsLeaveAlone: each command completes somewhere. -/
theorem witness_next :
    ∀ i ∈ [Instr.seed 1 (-10) 100, .seedBytes, .parse 1 9, .parseBlocks 1 2, .skip 1 9, .getState 1, .setState 1 0 88,
      .blockDecode 2, .encodeStub, .seek 4294967295],
      (nextState? (exec i nine)).isSome = true := by decide

/-- ChannelsAreIndependent: a command that names channel 1, seen from channel 0. -/
theorem witness_channels :
    (Instr.parse 1 9).channel? = some 1 ∧ (∃ t, exec (.parse 1 9) nine = .next t) ∧ (0 : Nat) ≠ 1 :=
  ⟨rfl, exists_next (by decide), by decide⟩

/-- CursorMovesForwardInsideBuffer. -/
theorem witness_cursor :
    nine.Inv ∧ (∃ t, exec (.skip 1 9) nine = .next t) ∧ (Instr.skip 1 9).opcode ≠ 0x0A#8 :=
  ⟨nine_inv, exists_next (by decide), by decide⟩

/-- DecodedPredictorStaysInRange: both clauses. -/
theorem witness_range :
    (nine.Inv ∧ 1 < nine.straps.nch ∧ 0 < 1 ∧ ∃ t, exec (.parse 1 1) nine = .next t) ∧
    ((Instr.parse 1 1).opcode ∉ [0x01#8, 0x02#8, 0x07#8] ∧
      predictorFloor nine.straps.variant ≤ (nine.readCh 1).predictor.toInt) :=
  ⟨⟨nine_inv, by decide, by decide, exists_next (by decide)⟩, by decide⟩

/-- ParseChunkingInvariance: an inner cut, and both ends. -/
theorem witness_chunks : nine.Inv ∧ 1 < nine.straps.nch ∧ 4 ≤ 9 ∧ 0 ≤ 9 ∧ 9 ≤ 9 ∧ 9 ≤ nine.inAvail := ⟨nine_inv, by decide⟩

/-- StreamPartsAgreeWithOneParse. -/
theorem witness_parts :
    nine.Inv ∧ 1 < nine.straps.nch ∧ partsLength [(true, 2), (false, 3), (true, 0), (true, 4)] ≤ nine.inAvail :=
  ⟨nine_inv, by decide⟩

/-- SnapshotRestoresChannelState: from one machine's last channel into another's. -/
theorem witness_snapshot : nine.Inv ∧ widest.Inv ∧ 1 < nine.straps.nch ∧ 255 < widest.straps.nch :=
  ⟨nine_inv, widest_inv, by decide⟩

/-- LoopReentryRepeatsSamples: the same buffer, another channel state and cursor. -/
theorem witness_loop :
    let w := (nine.writeCh 1 (chan 1234 5)).setCursor 9
    nine.Inv ∧ w.Inv ∧ 1 < nine.straps.nch ∧ 4 ≤ nine.inAvail ∧ w.straps = nine.straps ∧ w.inBuf = nine.inBuf ∧
    w.inLen = nine.inLen ∧ ∃ t, exec (.parse 1 4) nine = .next t :=
  ⟨nine_inv, by constructor <;> decide, by decide, by decide, rfl, rfl, rfl, exists_next (by decide)⟩

/-- VariantsAgreeUntilFloor: a stream that never meets the floor (S2), and one that meets it at once (V-D's smallest overshoot,
then code 0 at step 157: `157 >> 3 = 19`). -/
theorem witness_variants :
    (∀ x ∈ (decodeBytes (strapsOf .ima .lowFirst 0) (chan 0 0) [0x0F]).2, x.toInt ≠ -32768) ∧
    (chan (-32767) 30).predictor.toInt ≠ -32768 ∧
    (decodeBytes (strapsOf .ima .lowFirst 0) (chan (-32767) 30) [0x0C]).2.map BitVec.toInt = [-32768, -32749] := by
  have h : (decodeBytes (strapsOf .ima .lowFirst 0) (chan 0 0) [0x0F]).2 = [0xFFF5, 0xFFF7] := by decide
  refine ⟨?_, by decide, by decide⟩
  rw [h]
  intro x hx
  rcases List.mem_cons.1 hx with rfl | hx
  · decide
  · rw [List.mem_singleton.1 hx]; decide

/-- BlockAgreesWithStreaming. -/
theorem witness_blockStreaming :
    let s := machine1 (chan 5 5) [0, 0, 0, 0, 0x0F]
    s.Inv ∧ s.straps.nch = 1 ∧ s.straps.nibbleOrder = .lowFirst ∧ 4 ≤ s.inAvail :=
  ⟨by constructor <;> decide, by decide⟩

end Sys2Proof.Tests
end

section
/-! The straps over a whole step (00_scope.md R6), and the frame of a command (10_state.md R26, R27). -/

namespace Sys2Proof.Machine

/-- With no program left the core waits (60_exceptions.md R176). -/
theorem step_nil {s : State} (h : s.pending = []) : step s = .next s := by
  simp [step, h]

/-- Loading input answers a next state only for bytes that fit a buffer (10_state.md R26). -/
theorem performAction_loadInput_next {bytes : List Byte} {s t : State}
    (h : performAction (.loadInput bytes) s = .next t) : bytes.length ≤ maxInputLength ∧ t = s.loadInput bytes := by
  simp only [performAction] at h
  split at h
  · cases h
  · injection h with h
    exact ⟨by omega, h.symm⟩

/-- A host action keeps the straps, or it is the reset that carries the new ones (10_state.md R29). -/
theorem performAction_straps {a : HostAction} {s t : State} (h : performAction a s = .next t) :
    t.straps = s.straps ∨ a = .reset t.straps := by
  cases a with
  | reset p =>
    injection h with h
    exact .inr (by rw [← h, State.applyReset_straps])
  | loadInput bytes =>
    obtain ⟨-, rfl⟩ := performAction_loadInput_next h
    exact .inl (State.loadInput_straps ..)
  | issue w =>
    obtain ⟨_, _, _, he, rfl⟩ := issueCommand_next_effect h
    exact .inl he.extends.straps
  | readOutput =>
    injection h with h
    exact .inl (by rw [h])
  | drain =>
    injection h with h
    exact .inl (by rw [← h, State.drainOut_straps])
  | takeFront n =>
    injection h with h
    exact .inl (by rw [← h, State.takeFront_straps])

/-- Settles O16: a waiting step changes nothing, and any other step is its first action, of which only a reset carries
straps. -/
theorem onlyResetChangesStraps : Obligations.OnlyResetChangesStraps := by
  intro s t h
  cases hp : s.pending with
  | nil =>
    rw [step_nil hp] at h
    injection h with h
    exact .inl (by rw [h])
  | cons a rest =>
    rw [step_cons hp] at h
    obtain hs | ha := performAction_straps h
    · exact .inl hs
    · exact .inr ⟨t.straps, rest, by rw [ha], rfl⟩

/-- Settles O44: a command's effect stays inside the frame `State.Extends`, and its response is delivered on top of it. -/
theorem commandFrame : Obligations.CommandFrame := by
  intro i s t h
  obtain ⟨u, r, he, rfl⟩ := exec_next_effect h
  obtain ⟨hstraps, hlength, hinBuf, hinLen, hpending, hresponses, hdrained, hout⟩ := he.extends
  refine ⟨hstraps, fun a => ?_, hinLen, hpending, hdrained, hlength, hout, r, ?_⟩
  · rw [State.respond_inBuf, hinBuf]
  · rw [State.respond_responses, hresponses]

end Sys2Proof.Machine
end

section
/-! The invariant over a whole step and at reset (10_state.md R34, R35). -/

namespace Sys2Proof.Machine

/-- A command or a reserved word, answered with its response, keeps the invariant: an error's `VAL` is 0. -/
theorem issueCommand_inv {w : Command} {s t : State} (hs : s.Inv) (h : issueCommand w s = .next t) : t.Inv := by
  obtain ⟨_, _, _, he, rfl⟩ := issueCommand_next_effect h
  exact (he.inv hs).respond fun hk => (he.error_eq hk).2

/-- Every host action keeps the invariant. -/
theorem performAction_inv {a : HostAction} {s t : State} (hs : s.Inv) (h : performAction a s = .next t) : t.Inv := by
  cases a with
  | reset p =>
    injection h with h
    exact h ▸ hs.applyReset p
  | loadInput bytes =>
    obtain ⟨hb, rfl⟩ := performAction_loadInput_next h
    exact hs.loadInput hb
  | issue w => exact issueCommand_inv hs h
  | readOutput =>
    injection h with h
    exact h ▸ hs
  | drain =>
    injection h with h
    exact h ▸ hs.drainOut
  | takeFront n =>
    injection h with h
    exact h ▸ hs.takeFront n

/-- Settles O18: a waiting step changes nothing, and any other step is its first host action, which keeps the invariant. -/
theorem stepKeepsInvariant : Obligations.StepKeepsInvariant := by
  intro s t hs h
  cases hp : s.pending with
  | nil =>
    rw [step_nil hp] at h
    injection h with h
    exact h ▸ hs
  | cons a rest =>
    rw [step_cons hp] at h
    exact performAction_inv (hs.withPending rest) h

@[simp] theorem resetChannels_length (p : Straps) : (resetChannels p).length = p.nch := List.length_replicate

/-- Every channel below `NCH` is zero-initialized. -/
theorem resetChannels_getElem? {p : Straps} {c : Nat} (h : c < p.nch) : (resetChannels p)[c]? = some ChannelState.zero := by
  simp [resetChannels, h]

theorem resetChannels_index_le (p : Straps) : ∀ st ∈ resetChannels p, st.stepIndex.toNat ≤ 88 := by
  intro st hst
  rw [List.eq_of_mem_replicate hst]
  decide

/-- Settles O12: the channel file is `resetChannels`, every other register is given by the definition. -/
theorem resetStateValues : Obligations.ResetStateValues :=
  ⟨fun _ hc => resetChannels_getElem? hc, resetChannels_length Config.resetStraps, rfl, rfl, rfl, rfl⟩

/-- Settles O13: the step is the reset action, performed on the program behind it. -/
theorem resetActionValues : Obligations.ResetActionValues := by
  intro s p rest h
  rw [step_cons h]
  rfl

/-- Settles O19: the zero channels are in range, and the buffer, the sink and the responses are empty. -/
theorem resetMeetsInvariant : Obligations.ResetMeetsInvariant where
  channels := resetChannels_length Config.resetStraps
  indices := resetChannels_index_le Config.resetStraps
  buffer := rfl
  bounds := rfl
  sink := List.forall_mem_nil _
  responses := List.forall_mem_nil _

end Sys2Proof.Machine
end

section
/-! What each command leaves alone, and where the cursor goes (10_state.md R24, R25; 20_memory.md R46, R50). -/

namespace Sys2Proof.Machine

variable {i : Instr} {s u : State} {r : Response}

/-- GET_STATE, BLOCK_DECODE, ENCODE and SEEK write no channel state (10_state.md R24). -/
theorem CommandEffect.ch_eq (h : CommandEffect i s u r) (hi : i.opcode ∈ [0x06#8, 0x08#8, 0x09#8, 0x0A#8]) :
    u.ch = s.ch := by
  cases h with
  | getState | seek | error => rfl
  | blockDecode => exact (State.ch_blockRun ..).trans (State.ch_blockPreambles ..)
  | seed | seedBytes | parse | parseBlocks | skip | setState => simp [Instr.opcode] at hi

/-- Only PARSE, PARSE_BLOCKS and BLOCK_DECODE append to the sink (20_memory.md R46). -/
theorem CommandEffect.out_eq (h : CommandEffect i s u r)
    (hi : i.opcode ∈ [0x01#8, 0x02#8, 0x05#8, 0x06#8, 0x07#8, 0x09#8, 0x0A#8]) : u.out = s.out := by
  cases h with
  | seed | getState | setState | seek | error => rfl
  | seedBytes => exact State.out_seedRun ..
  | skip => exact State.out_skipRun ..
  | parse | parseBlocks | blockDecode => simp [Instr.opcode] at hi

/-- SEED, GET_STATE, SET_STATE and ENCODE consume no input (10_state.md R25). -/
theorem CommandEffect.inCur_eq (h : CommandEffect i s u r) (hi : i.opcode ∈ [0x01#8, 0x06#8, 0x07#8, 0x09#8]) :
    u.inCur = s.inCur := by
  cases h with
  | seed | getState | setState | error => rfl
  | seedBytes | parse | parseBlocks | skip | blockDecode | seek => simp [Instr.opcode] at hi

/-- Settles O46: a response moves neither `CH` nor `OUT` nor the cursor, so each part is one of the effect's. -/
theorem whatCommandsLeaveAlone : Obligations.WhatCommandsLeaveAlone := by
  intro i s t h
  obtain ⟨u, r, he, rfl⟩ := exec_next_effect h
  exact ⟨he.ch_eq, he.out_eq, he.inCur_eq⟩

/-! ### The cursor -/

/-- A valid channel is an entry of the channel file (10_state.md R20). -/
theorem State.Inv.lt_length {c : Nat} (hs : s.Inv) (hc : c < s.straps.nch) : c < s.ch.length := hs.channels ▸ hc

theorem State.inCur_decodeRun {emit : Bool} {c n : Nat} (hn : n ≤ s.inAvail) (hc : c < s.ch.length) :
    (State.decodeRun emit c n s).inCur = s.inCur + BitVec.ofNat 32 n := by
  rw [State.decodeRun_eq emit c n s hn hc]

/-- PARSE_BLOCKS covers no more than the unread bytes (43_streaming.md R120). -/
theorem State.wholeGroups_le_inAvail (s : State) (k : Nat) : 4 * min k (s.inAvail / 4) ≤ s.inAvail := by omega

/-- BLOCK_DECODE consumes every unread byte: first the preambles, then the rest (42_block_decoder.md R100). -/
theorem State.inCur_blockDecode {c : Nat} (hn : 4 * c ≤ s.inAvail) :
    (State.blockRun c (State.blockPreambles c s).2.inAvail 0 (State.blockPreambles c s)).2.inCur =
      s.inCur + BitVec.ofNat 32 s.inAvail := by
  have hcur := State.cursor_add hn
  have hrest : (State.blockPreambles c s).2.inAvail = s.inAvail - 4 * c := by
    rw [State.blockPreambles_eq c s hn]
    simp only [State.inAvail, hcur]
    omega
  rw [State.blockRun_eq c _ 0 _ (State.blockPreambles c s).2 le_rfl, hrest, State.blockPreambles_eq c s hn]
  simp only [BitVec.add_assoc, ← BitVec.ofNat_add, Nat.add_sub_cancel' hn]

/-- Every command but SEEK consumes some of the unread bytes, and does nothing else to the cursor (10_state.md R25,
20_memory.md R50). -/
theorem CommandEffect.inCur_eq_add (h : CommandEffect i s u r) (hs : s.Inv) (hi : i.opcode ≠ 0x0A#8) :
    ∃ n ≤ s.inAvail, u.inCur = s.inCur + BitVec.ofNat 32 n := by
  cases h with
  | seed | getState | setState | error => exact ⟨0, Nat.zero_le _, (BitVec.add_zero _).symm⟩
  | seedBytes hn => exact ⟨_, hn, by rw [State.seedRun_eq _ 0 s hn (by rw [hs.channels, Nat.zero_add])]⟩
  | parse hc hn | skip hc hn => exact ⟨_, hn, State.inCur_decodeRun hn (hs.lt_length hc)⟩
  | parseBlocks hc =>
    have hn := s.wholeGroups_le_inAvail
    exact ⟨_, hn _, State.inCur_decodeRun (hn _) (hs.lt_length hc)⟩
  | blockDecode _ _ hn => exact ⟨_, le_rfl, State.inCur_blockDecode hn⟩
  | seek => exact absurd rfl hi

/-- Settles O47: the cursor advances, without wrapping, by a number of bytes that is at most `InAvail`. -/
theorem cursorMovesForwardInsideBuffer : Obligations.CursorMovesForwardInsideBuffer := by
  intro i s t hs h hi
  obtain ⟨u, r, he, rfl⟩ := exec_next_effect h
  obtain ⟨n, hn, hcur⟩ := he.inCur_eq_add hs hi
  rw [State.respond_inCur, hcur, State.cursor_add hn]
  unfold State.inAvail at hn
  omega

end Sys2Proof.Machine
end

section
/-! The predictor's range after a decode (10_state.md R35 (c), 45_laws.md R151). -/

namespace Sys2Proof.Machine

variable {s : State} {emit : Bool} {c n : Nat}

theorem decodeByte_predictor_floor (p : Straps) (st : ChannelState) (b : Byte) :
    predictorFloor p.variant ≤ (decodeByte p st b).1.predictor.toInt := decodeSample_floor ..

/-- Decoding bytes keeps a predictor that lies in the variant's range. -/
theorem decodeBytes_predictor_floor {p : Straps} {st : ChannelState} (bs : List Byte)
    (h : predictorFloor p.variant ≤ st.predictor.toInt) :
    predictorFloor p.variant ≤ (decodeBytes p st bs).1.predictor.toInt := by
  induction bs generalizing st with
  | nil => exact h
  | cons b rest ih => exact ih (decodeByte_predictor_floor p st b)

/-- Decoding at least one byte takes any predictor into the variant's range: the first byte does. -/
theorem decodeBytes_predictor_floor_of_ne_nil {p : Straps} (st : ChannelState) {bs : List Byte} (h : bs ≠ []) :
    predictorFloor p.variant ≤ (decodeBytes p st bs).1.predictor.toInt := by
  cases bs with
  | nil => exact absurd rfl h
  | cons b rest => exact decodeBytes_predictor_floor rest (decodeByte_predictor_floor p st b)

theorem State.readCh_decodeRun_same (hn : n ≤ s.inAvail) (hc : c < s.ch.length) :
    (State.decodeRun emit c n s).readCh c = (decodeBytes s.straps (s.readCh c) (s.upcoming n)).1 := by
  rw [State.decodeRun_eq emit c n s hn hc]
  exact State.readCh_writeCh_same s c _ hc

theorem State.upcoming_ne_nil (h : 0 < n) : s.upcoming n ≠ [] :=
  List.ne_nil_of_length_pos (by rwa [State.upcoming, Memory.bytesAt_length])

theorem State.decodeRun_predictor_floor_of_pos (hn : n ≤ s.inAvail) (hc : c < s.ch.length) (hpos : 0 < n) :
    predictorFloor s.straps.variant ≤ ((State.decodeRun emit c n s).readCh c).predictor.toInt := by
  rw [State.readCh_decodeRun_same hn hc]
  exact decodeBytes_predictor_floor_of_ne_nil _ (State.upcoming_ne_nil hpos)

/-- The streaming loop keeps every channel's predictor in the variant's range: its own channel's by the decode, any other
channel is not written. -/
theorem State.decodeRun_predictor_floor (hn : n ≤ s.inAvail) (hc : c < s.ch.length) {d : Nat}
    (h : predictorFloor s.straps.variant ≤ (s.readCh d).predictor.toInt) :
    predictorFloor s.straps.variant ≤ ((State.decodeRun emit c n s).readCh d).predictor.toInt := by
  by_cases hd : d = c
  · subst hd
    rw [State.readCh_decodeRun_same hn hc]
    exact decodeBytes_predictor_floor _ h
  · rwa [State.readCh_decodeRun_ne emit n s hd]

theorem State.readCh_congr {t : State} (h : t.ch = s.ch) (d : Nat) : t.readCh d = s.readCh d := by
  rw [State.readCh, h, State.readCh]

/-- Every command but SEED, SEED_BYTES and SET_STATE keeps a predictor that lies in the variant's range. -/
theorem CommandEffect.predictor_floor {i : Instr} {u : State} {r : Response} {d : Nat} (h : CommandEffect i s u r)
    (hs : s.Inv) (hi : i.opcode ∉ [0x01#8, 0x02#8, 0x07#8])
    (hd : predictorFloor s.straps.variant ≤ (s.readCh d).predictor.toInt) :
    predictorFloor s.straps.variant ≤ (u.readCh d).predictor.toInt := by
  cases h with
  | parse hc hn | skip hc hn => exact State.decodeRun_predictor_floor hn (hs.lt_length hc) hd
  | parseBlocks hc => exact State.decodeRun_predictor_floor (State.wholeGroups_le_inAvail ..) (hs.lt_length hc) hd
  | getState | seek | error => exact hd
  | blockDecode =>
    rwa [State.readCh_congr ((State.ch_blockRun ..).trans (State.ch_blockPreambles ..))]
  | seed | seedBytes | setState => simp [Instr.opcode] at hi

/-- PARSE and SKIP on a valid channel are the streaming loop, when the bytes are there (43_streaming.md R116, R118, R122). -/
theorem exec_streamPart (hc : c < s.straps.nch) :
    exec (streamPart c (emit, n)) s =
      if s.inAvail < n then .fault .stuckShortInput else (State.decodeRun emit c n s).finish := by
  cases emit
  · exact State.onChannel_of_lt hc
  · exact State.onChannel_of_lt hc

theorem exec_streamPart_next {t : State} (hc : c < s.straps.nch) (h : exec (streamPart c (emit, n)) s = .next t) :
    n ≤ s.inAvail ∧ t = (State.decodeRun emit c n s).respond .ok (State.decodeRun emit c n s).inCur := by
  rw [exec_streamPart hc] at h
  split at h
  · cases h
  · injection h with h
    exact ⟨by omega, h.symm⟩

/-- Settles O49: the last sample decode of a byte clamps the predictor, and the other commands that complete either run
the same decode or write no channel state. -/
theorem decodedPredictorStaysInRange : Obligations.DecodedPredictorStaysInRange := by
  refine ⟨fun s t c n hs hc hpos h => ?_, fun i s t c hi hs h hd => ?_⟩
  · obtain ⟨emit, h⟩ : ∃ emit, exec (streamPart c (emit, n)) s = .next t := h.elim (⟨true, ·⟩) (⟨false, ·⟩)
    obtain ⟨hn, rfl⟩ := exec_streamPart_next hc h
    exact State.decodeRun_predictor_floor_of_pos hn (hs.lt_length hc) hpos
  · obtain ⟨u, r, he, rfl⟩ := exec_next_effect h
    exact he.predictor_floor hs hi hd

end Sys2Proof.Machine
end

section
/-! The step that issues a command, and the byte view of the sink (20_memory.md R47, R52, R42). -/

namespace Sys2Proof.Machine

/-- A word that spells a command is executed as that command (30_encoding.md R63). -/
theorem issueCommand_of_decode {w : Command} {i : Instr} (h : decode w = .ok i) (s : State) :
    issueCommand w s = exec i s := by
  simp only [issueCommand, h]

/-- Settles O9: the step is the first action of the program, an issue of a word that spells a command. -/
theorem stepExecutesIssuedCommand : Obligations.StepExecutesIssuedCommand := by
  intro s w rest i hp hd
  calc step s
    _ = issueCommand w (s.withPending rest) := step_cons hp
    _ = exec i (s.withPending rest) := issueCommand_of_decode hd _

theorem outBytes_length (out : List OutEntry) : (outBytes out).length = 2 * out.length := by
  induction out with
  | nil => rfl
  | cons e rest ih => simp only [outBytes, List.length_cons, ih]; omega

/-- The first entry owns bytes 0 and 1; every later entry's bytes stand two places after where they stand in the view of
the entries behind the first. -/
theorem outBytes_getElem? {out : List OutEntry} {i : Nat} (h : i < out.length) :
    (outBytes out)[2 * i]? = some (out[i].sample.extractLsb' 0 8) ∧
      (outBytes out)[2 * i + 1]? = some (out[i].sample.extractLsb' 8 8) := by
  induction out generalizing i with
  | nil => exact absurd h (Nat.not_lt_zero i)
  | cons e rest ih =>
    cases i with
    | zero => exact ⟨rfl, rfl⟩
    | succ i => exact ih (Nat.lt_of_succ_lt_succ h)

/-- Settles O58: by induction on the sink, whose every entry puts its two bytes in front of the rest's. -/
theorem sinkByteView : Obligations.SinkByteView :=
  fun out => ⟨outBytes_length out, fun _ => outBytes_getElem?⟩

end Sys2Proof.Machine
end

section
/-! The opcode map: which fields spell which command, and which spell none (30_encoding.md R60 to R63, R69). -/

namespace Sys2Proof

/-- `OpcodeRow ch arg op i`: the fields `ch` and `arg` under opcode `op` are those of command `i`, one constructor per row of
R63's table with R62's operands. -/
inductive OpcodeRow (ch : BitVec 8) (arg : Word) : BitVec 8 → Instr → Prop where
  | seed : OpcodeRow ch arg 0x01 (.seed ch.toNat (argLow arg).toInt (argHigh arg).toInt)
  | seedBytes : OpcodeRow ch arg 0x02 .seedBytes
  | parse : OpcodeRow ch arg 0x03 (.parse ch.toNat arg.toNat)
  | parseBlocks : OpcodeRow ch arg 0x04 (.parseBlocks ch.toNat arg.toNat)
  | skip : OpcodeRow ch arg 0x05 (.skip ch.toNat arg.toNat)
  | getState : OpcodeRow ch arg 0x06 (.getState ch.toNat)
  | setState : OpcodeRow ch arg 0x07 (.setState ch.toNat (argLow arg).toInt (argHigh arg).toNat)
  | blockDecode : OpcodeRow ch arg 0x08 (.blockDecode arg.toNat)
  | encodeStub : OpcodeRow ch arg 0x09 .encodeStub
  | seek : OpcodeRow ch arg 0x0A (.seek arg.toNat)

variable {op ch : BitVec 8} {arg : Word} {i : Instr} {w : Command}

/-- The opcode map answers a command exactly when its fields are those of a row. -/
theorem decodeFields_ok_iff : decodeFields op ch arg = .ok i ↔ OpcodeRow ch arg op i := by
  constructor
  · intro h
    unfold decodeFields at h
    split at h <;> cases h <;> constructor
  · intro h
    cases h <;> rfl

/-- A word spells a command exactly when its reserved bits are zero and its fields are those of a row (R63). -/
theorem decode_ok_iff_row : decode w = .ok i ↔ rsvField w = 0 ∧ OpcodeRow (chField w) (argField w) (opField w) i :=
  decode_ok_iff.trans (and_congr_right fun _ => decodeFields_ok_iff)

/-- The opcodes without a row are 0x00 and those from 0x0B up (R69). -/
theorem decodeFields_error_iff : (∃ e, decodeFields op ch arg = .error e) ↔ op = 0x00#8 ∨ 0x0B#8 ≤ op := by
  unfold decodeFields
  split
  case h_11 =>
    simp only [imp_false] at *
    exact ⟨fun _ => by bv_omega, fun _ => ⟨_, rfl⟩⟩
  all_goals simp

theorem decode_error_iff :
    (∃ e, decode w = .error e) ↔ rsvField w ≠ 0 ∨ opField w = 0x00#8 ∨ 0x0B#8 ≤ opField w := by
  unfold decode
  split
  next h => exact ⟨fun _ => .inl h, fun _ => ⟨_, rfl⟩⟩
  next h => exact decodeFields_error_iff.trans (or_iff_right h).symm

/-- Settles O6: the reserved bits are looked at first, and then only an opcode without a row is an error. -/
theorem decoderRejectsExactlyTheReservedWords : Obligations.DecoderRejectsExactlyTheReservedWords :=
  fun _ => decode_error_iff

theorem argLow_argField (w : Command) : argLow (argField w) = w.extractLsb' 0 16 :=
  BitVec.extractLsb'_extractLsb'_of_le (by decide)

theorem argHigh_argField (w : Command) : argHigh (argField w) = w.extractLsb' 16 16 :=
  BitVec.extractLsb'_extractLsb'_of_le (by decide)

/-- Settles O2: each opcode's conjunct is its row. -/
theorem commandOperandsFromFields : Obligations.CommandOperandsFromFields := by
  intro w hrsv
  have spells {op : BitVec 8} {i : Instr} (hrow : OpcodeRow (chField w) (argField w) op i) (hop : opField w = op) :
      decode w = .ok i := decode_ok_iff_row.mpr ⟨hrsv, hop ▸ hrow⟩
  rw [← argLow_argField, ← argHigh_argField]
  exact ⟨spells .seed, spells .seedBytes, spells .parse, spells .parseBlocks, spells .skip, spells .getState,
    spells .setState, spells .blockDecode, spells .encodeStub, spells .seek⟩

/-- Settles O7: closed words, which the decoder evaluates. -/
theorem specWordsDecode : Obligations.SpecWordsDecode :=
  ⟨rfl, rfl, rfl, rfl, rfl, rfl, rfl, rfl, rfl, rfl, rfl⟩

end Sys2Proof
end

section
/-! Decoding and encoding agree (30_encoding.md R61 to R63, R72). -/

namespace Sys2Proof

open Sys2Proof.Machine

variable {op ch : BitVec 8} {arg : Word} {i : Instr}

/-- Settles O1: each command's operands come back from the fields the encoder puts them in. -/
theorem decodeEncodeRoundTrip : Obligations.DecodeEncodeRoundTrip := by
  intro i
  cases i with
  | seed ch pred idx => exact Laws.DecodeEncode.seed ch pred idx
  | seedBytes => exact Laws.DecodeEncode.seedBytes
  | parse ch n => exact Laws.DecodeEncode.parse ch n
  | parseBlocks ch k => exact Laws.DecodeEncode.parseBlocks ch k
  | skip ch n => exact Laws.DecodeEncode.skip ch n
  | getState ch => exact Laws.DecodeEncode.getState ch
  | setState ch pred idx => exact Laws.DecodeEncode.setState ch pred idx
  | blockDecode c => exact Laws.DecodeEncode.blockDecode c
  | encodeStub => exact Laws.DecodeEncode.encodeStub
  | seek pos => exact Laws.DecodeEncode.seek pos

/-! ### Every field's value is in the range of its operand -/

theorem isChannelField_toNat (x : BitVec 8) : isChannelField x.toNat = true := isChannelField_iff.mpr x.isLt

theorem isUnsigned16_toNat (x : BitVec 16) : isUnsigned16 x.toNat = true := isUnsigned16_iff.mpr x.isLt

theorem isUnsigned32_toNat (x : BitVec 32) : isUnsigned32 x.toNat = true := isUnsigned32_iff.mpr x.isLt

theorem isSigned16_toInt (x : BitVec 16) : isSigned16 x.toInt = true := isSigned16_iff.mpr ⟨x.le_toInt, x.toInt_lt⟩

theorem OpcodeRow.wellFormed (h : OpcodeRow ch arg op i) : i.wellFormed = true := by
  cases h <;>
    simp only [Instr.wellFormed, isChannelField_toNat, isSigned16_toInt, isUnsigned16_toNat, isUnsigned32_toNat, Bool.and_self]

/-- Settles O3: a decoded command is a row's, whose operands are values of its fields. -/
theorem decodedCommandIsWellFormed : Obligations.DecodedCommandIsWellFormed :=
  fun _ _ h => (decode_ok_iff_row.mp h).2.wellFormed

/-! ### Clearing the ignored fields: the four masks of `usedBits` on a packed word -/

theorem packCommand_and_all (op ch : BitVec 8) (arg : Word) :
    packCommand op ch arg &&& 0xFFFFFFFFFFFFFFFF = packCommand op ch arg := BitVec.and_allOnes

theorem packCommand_and_noArg (op ch : BitVec 8) (arg : Word) :
    packCommand op ch arg &&& 0xFFFFFFFF00000000 = packCommand op ch 0 :=
  (packCommand_and op ch (.allOnes 8) (.allOnes 8) 0xFFFF arg 0#32).trans
    (by simp only [BitVec.and_allOnes, BitVec.and_zero, BitVec.ofNat_eq_ofNat])

theorem packCommand_and_noCh (op ch : BitVec 8) (arg : Word) :
    packCommand op ch arg &&& 0xFF00FFFFFFFFFFFF = packCommand op 0 arg :=
  (packCommand_and op ch (.allOnes 8) 0#8 0xFFFF arg (.allOnes 32)).trans
    (by simp only [BitVec.and_allOnes, BitVec.and_zero, BitVec.ofNat_eq_ofNat])

theorem packCommand_and_opOnly (op ch : BitVec 8) (arg : Word) :
    packCommand op ch arg &&& 0xFF00FFFF00000000 = packCommand op 0 0 :=
  (packCommand_and op ch (.allOnes 8) 0#8 0xFFFF arg 0#32).trans
    (by simp only [BitVec.and_allOnes, BitVec.and_zero, BitVec.ofNat_eq_ofNat])

/-- The encoder's word of a row's command is the packed fields with those the command ignores cleared (R61, R72). -/
theorem OpcodeRow.encode_eq (h : OpcodeRow ch arg op i) : encode i = packCommand op ch arg &&& usedBits i := by
  cases h with
  | seed | setState =>
    simp only [encode, usedBits, packCommand_and_all, BitVec.ofNat_toNat, BitVec.setWidth_eq, BitVec.ofInt_toInt,
      packPair_halves]
  | parse | parseBlocks | skip =>
    simp only [encode, usedBits, packCommand_and_all, BitVec.ofNat_toNat, BitVec.setWidth_eq]
  | getState => simp only [encode, usedBits, packCommand_and_noArg, BitVec.ofNat_toNat, BitVec.setWidth_eq]
  | blockDecode | seek => simp only [encode, usedBits, packCommand_and_noCh, BitVec.ofNat_toNat, BitVec.setWidth_eq]
  | seedBytes | encodeStub => simp only [encode, usedBits, packCommand_and_opOnly]

/-- Settles O4: a word that decodes is the pack of its fields, and its command is a row's. -/
theorem encodeDecodeClearsIgnoredFields : Obligations.EncodeDecodeClearsIgnoredFields := by
  intro w i h
  obtain ⟨hrsv, hrow⟩ := decode_ok_iff_row.mp h
  rw [hrow.encode_eq, ← command_eq_pack hrsv]

/-! ### Match and mask -/

theorem OpcodeRow.opcode_eq (h : OpcodeRow ch arg op i) : i.opcode = op := by
  cases h <;> rfl

/-- R63's `match`, the opcode in the top byte and zeros below, is a command word with `CH` and `ARG` zero. -/
theorem shiftLeft_opcode_eq_pack (op : BitVec 8) : op.setWidth 64 <<< 56 = packCommand op 0 0 := by
  apply BitVec.eq_of_toNat_eq
  have h := op.isLt
  rw [packCommand_toNat, BitVec.toNat_shiftLeft, BitVec.toNat_setWidth, Nat.shiftLeft_eq]
  simp only [BitVec.ofNat_eq_ofNat, BitVec.toNat_ofNat]
  omega

/-- R63's `mask` keeps `OP` and `RSV`, so the match holds exactly when `RSV` is zero and `OP` is the row's. -/
theorem mask_eq_match_iff {w : Command} :
    w &&& 0xFF00FFFF00000000#64 = op.setWidth 64 <<< 56 ↔ rsvField w = 0 ∧ opField w = op := by
  rw [shiftLeft_opcode_eq_pack]
  constructor
  · intro h
    have hop : opField (w &&& 0xFF00FFFF00000000#64) = opField w := BitVec.extractLsb'_and.trans BitVec.and_allOnes
    have hrsv : rsvField (w &&& 0xFF00FFFF00000000#64) = rsvField w := BitVec.extractLsb'_and.trans BitVec.and_allOnes
    rw [← hop, ← hrsv, h]
    exact ⟨rsvField_pack .., opField_pack ..⟩
  · rintro ⟨hrsv, rfl⟩
    rw [command_eq_pack hrsv, opField_pack]
    exact packCommand_and_opOnly ..

/-- Every opcode from 0x01 to 0x0A has a row, whatever the other fields (R63). -/
theorem exists_row (hlo : 0x01#8 ≤ op) (hhi : op ≤ 0x0A#8) (ch : BitVec 8) (arg : Word) : ∃ i, OpcodeRow ch arg op i := by
  cases hd : decodeFields op ch arg with
  | ok i => exact ⟨i, decodeFields_ok_iff.mp hd⟩
  | error e =>
    have hop := decodeFields_error_iff.mp ⟨e, hd⟩
    bv_omega

/-- Settles O5: both sides say that `RSV` is zero and `OP` is `op`; for an opcode of the table the fields then have a row. -/
theorem commandFollowsMatchAndMask : Obligations.CommandFollowsMatchAndMask := by
  intro w op hlo hhi
  rw [mask_eq_match_iff]
  constructor
  · rintro ⟨hrsv, rfl⟩
    obtain ⟨i, hrow⟩ := exists_row hlo hhi (chField w) (argField w)
    exact ⟨i, decode_ok_iff_row.mpr ⟨hrsv, hrow⟩, hrow.opcode_eq⟩
  · rintro ⟨i, hd, rfl⟩
    obtain ⟨hrsv, hrow⟩ := decode_ok_iff_row.mp hd
    exact ⟨hrsv, hrow.opcode_eq.symm⟩

end Sys2Proof
end

section
/-! What an issued word is answered with (30_encoding.md R64, R69; 60_exceptions.md R163). -/

namespace Sys2Proof.Machine

/-- A word that spells no command is answered with `ILLEGAL_COMMAND` (R69, R163). -/
theorem issueCommand_of_decode_error {w : Command} {e : DecodeError} (h : decode w = .error e) (s : State) :
    issueCommand w s = s.raise .illegalCommand := by
  simp only [issueCommand, h]

/-- Settles O10: the step is the first action of the program, an issue of a word that spells no command. -/
theorem reservedWordAnswersIllegalCommand : Obligations.ReservedWordAnswersIllegalCommand := by
  intro s w rest hp hw
  obtain ⟨e, he⟩ := decode_error_iff.mpr hw
  calc step s
    _ = issueCommand w (s.withPending rest) := step_cons hp
    _ = (s.withPending rest).raise .illegalCommand := issueCommand_of_decode_error he _

theorem HostAction.isCommand_iff {a : HostAction} : a.isCommand = true ↔ ∃ w, a = .issue w := by
  cases a <;> simp [HostAction.isCommand]

/-- Settles O17: a waiting step delivers nothing, and the first action of a program delivers one response exactly when it
issues a word. -/
theorem oneResponsePerIssuedWord : Obligations.OneResponsePerIssuedWord := by
  intro s t h
  cases hp : s.pending with
  | nil =>
    rw [step_nil hp] at h
    injection h with h
    exact ⟨fun ⟨_, _, hi⟩ => (nomatch hi), fun _ => by rw [h]⟩
  | cons a rest =>
    rw [step_cons hp] at h
    obtain ⟨rs, hrs, hlen⟩ := performAction_responses h
    rw [State.withPending_responses] at hrs
    constructor
    · rintro ⟨w, _, hi⟩
      injection hi with ha
      rw [if_pos (HostAction.isCommand_iff.mpr ⟨w, ha⟩)] at hlen
      obtain ⟨r, rfl⟩ := List.length_eq_one_iff.mp hlen
      exact ⟨r, hrs⟩
    · intro hi
      have ha : ¬ a.isCommand = true := by
        intro hc
        obtain ⟨w, rfl⟩ := HostAction.isCommand_iff.mp hc
        exact hi w rest rfl
      rw [if_neg ha] at hlen
      rw [hrs, List.length_eq_zero_iff.mp hlen, List.append_nil]

end Sys2Proof.Machine
end

section
/-! The fields of the response word and of a sink entry's word (30_encoding.md R64, R65, R68). -/

namespace Sys2Proof.Machine

/-- The three fields of three words put side by side. -/
theorem extractLsb'_append_append {k m n : Nat} (a : BitVec k) (b : BitVec m) (c : BitVec n) :
    (a ++ b ++ c).extractLsb' (n + m) k = a ∧ (a ++ b ++ c).extractLsb' n m = b ∧ (a ++ b ++ c).extractLsb' 0 n = c := by
  refine ⟨?_, ?_, ?_⟩
  · rw [BitVec.extractLsb'_append_eq_of_le (Nat.le_add_right n m), Nat.add_sub_cancel_left, BitVec.extractLsb'_append_eq_left]
  · rw [BitVec.extractLsb'_append_eq_of_le le_rfl, Nat.sub_self, BitVec.extractLsb'_append_eq_of_add_le (by omega),
      BitVec.extractLsb'_eq_self]
  · rw [BitVec.extractLsb'_append_eq_of_add_le (by omega), BitVec.extractLsb'_eq_self]

/-- Settles O8: `STATUS` is the status' number, and the fields are those of the word's three parts. -/
theorem responseWordFields : Obligations.ResponseWordFields := by
  intro r
  obtain ⟨hstatus, hzero, hval⟩ := extractLsb'_append_append r.status.code (0 : BitVec 24) r.val
  refine ⟨?_, hzero, hval⟩
  rw [show r.word.extractLsb' 56 8 = r.status.code from hstatus]
  cases r.status <;> rfl

/-- Settles O59: the fields are those of the word's three parts. -/
theorem sinkEntryWord : Obligations.SinkEntryWord :=
  fun e => extractLsb'_append_append (0 : BitVec 8) e.chan e.sample

end Sys2Proof.Machine
end

section
/-! The tables and the clamps (40_tables_and_policy.md R80 to R85). -/

namespace Sys2Proof.Machine

/-- The table repeats its first eight entries, so bit 3 of the index plays no part (R80). -/
theorem indexTable_getD_mod_eight : ∀ n < 16, indexTable.getD (n % 8) 0 = indexTable.getD n 0 := by decide

theorem indexAdjust_and_magnitude (s : Code) : indexAdjust (s &&& 0b0111#4) = indexAdjust s := by
  have hmod : (s &&& 0b0111#4).toNat = s.toNat % 8 := Nat.and_two_pow_sub_one_eq_mod s.toNat 3
  unfold indexAdjust
  rw [hmod, indexTable_getD_mod_eight s.toNat s.isLt]

/-- Each entry is below the next one (R81). -/
theorem stepSizeTable_isChain : stepSizeTable.IsChain (· < ·) := by simp [stepSizeTable]

theorem clampStepIndex_of_neg {i : Int} (h : i < 0) : clampStepIndex i = 0 := if_pos h

theorem clampStepIndex_of_ge {i : Int} (h : 89 ≤ i) : clampStepIndex i = 88 :=
  (if_neg (by omega)).trans (if_pos h)

/-- The clamp by cases: the floor below it, 32767 above it, the argument between (R84, R85). -/
theorem clampPredictor_eq_ite (v : Variant) (p : Int) :
    clampPredictor v p = if p < predictorFloor v then predictorFloor v else if 32767 < p then 32767 else p := by
  have hfloor := predictorFloor_range v
  unfold clampPredictor
  split
  · omega
  · split <;> omega

/-- The variants' clamps agree where neither floor acts, above -32768, and there only (R85). -/
theorem clampPredictor_ima_eq_nds_iff (p : Int) : clampPredictor .ima p = clampPredictor .nds p ↔ -32768 < p := by
  simp only [clampPredictor, predictorFloor]
  omega

/-- Settles O20: the model's table is that list, and its second half repeats the first. -/
theorem indexTableEntries : Obligations.IndexTableEntries :=
  ⟨fun _ => rfl, fun s => (indexAdjust_and_magnitude s).symm⟩

/-- Settles O21: ascending neighbours make an ascending table, as `<` is transitive; the rest is read off the table. -/
theorem stepSizeTableShape : Obligations.StepSizeTableShape :=
  ⟨rfl, stepSizeTable_isChain.pairwise, rfl, rfl, rfl⟩

/-- Settles O22: a clamped index is in range, where the clamp changes nothing. -/
theorem stepIndexClamp : Obligations.StepIndexClamp := fun i =>
  ⟨clampStepIndex_of_neg, clampStepIndex_of_ge, fun h0 h89 => clampStepIndex_of_range ⟨h0, by omega⟩,
    clampStepIndex_of_range (clampStepIndex_range i)⟩

/-- Settles O23: the clamp by cases at each variant's floor, and where the floors act differently. -/
theorem predictorClamp : Obligations.PredictorClamp := fun p =>
  ⟨clampPredictor_eq_ite .ima p, clampPredictor_eq_ite .nds p,
    (clampPredictor_ima_eq_nds_iff p).not.trans Int.not_lt⟩

end Sys2Proof.Machine
end

section
/-! One sample decode: its result, what it leaves, and the ranges it computes in (41_sample_decode.md R90 to R96). -/

namespace Sys2Proof.Machine

/-- The ROM answers the table's entry at every index the table has (R81). -/
theorem stepSize_eq_getElem {i : BitVec 7} (h : i.toNat < stepSizeTable.length) : stepSize i = stepSizeTable[i.toNat] := by
  simp only [stepSize, List.getElem?_eq_getElem h]

/-- A shift right by 3, 2 or 1 is a division by 8, 4 or 2 that truncates (R91). -/
theorem sampleDiff_eq_div (step : Nat) (s : Code) :
    sampleDiff step s = step / 8 + (if s.getLsbD 0 then step / 4 else 0) + (if s.getLsbD 1 then step / 2 else 0) +
      (if s.getLsbD 2 then step else 0) := by
  simp only [sampleDiff, Nat.shiftRight_eq_div_pow, Nat.reducePow]

/-- The largest difference is that of a code with all three magnitude bits set. -/
theorem sampleDiff_le (step : Nat) (s : Code) : sampleDiff step s ≤ step / 8 + step / 4 + step / 2 + step := by
  have ite_le (b : Bool) (n : Nat) : (if b then n else 0) ≤ n := by cases b <;> simp
  rw [sampleDiff_eq_div]
  exact Nat.add_le_add (Nat.add_le_add (Nat.add_le_add_left (ite_le ..) _) (ite_le ..)) (ite_le ..)

theorem indexAdjust_range : ∀ s : Code, -1 ≤ indexAdjust s ∧ indexAdjust s ≤ 8 := by decide

theorem clampPredictor_of_range {v : Variant} {p : Int} (hlo : predictorFloor v ≤ p) (hhi : p ≤ 32767) :
    clampPredictor v p = p := by
  rw [clampPredictor, max_eq_right hlo, min_eq_right hhi]

/-- The new step index is the clamped sum of the old one and the code's adjustment (R90 step 5). -/
theorem decodeSample_stepIndex (v : Variant) (st : ChannelState) (s : Code) :
    ((decodeSample v st s).1.stepIndex.toNat : Int) = clampStepIndex (st.stepIndex.toNat + indexAdjust s) :=
  toNat_clampStepIndex _

theorem decodeSample_predictor_le (v : Variant) (st : ChannelState) (s : Code) :
    (decodeSample v st s).1.predictor.toInt ≤ 32767 := by
  rw [decodeSample_predictor]
  exact (clampPredictor_range v _).2

/-- Settles O24: the new predictor is step 4 of the procedure, on the table's entry and the difference in quotients. -/
theorem decodeSampleResult : Obligations.DecodeSampleResult := by
  intro v st s h
  refine ⟨?_, decodeSample_stepIndex v st s, decodeSample_sample v st s⟩
  rw [decodeSample_predictor, stepSize_eq_getElem h, nextPredictor, sampleDiff_eq_div]

/-- Settles O25: a clamped predictor lies between the variant's floor and 32767, where the clamp changes nothing. -/
theorem decodeSamplePostconditions : Obligations.DecodeSamplePostconditions := by
  intro v st s
  have hlo := decodeSample_floor v st s
  have hhi := decodeSample_predictor_le v st s
  refine ⟨decodeSample_index_le v st s, clampPredictor_of_range hlo hhi, ?_, hhi, decodeSample_sample v st s⟩
  cases v <;> exact hlo

/-- Settles O26: the difference is at most 4095 + 8191 + 16383 + 32767, as the step is at most 32767; the sums then have
the ranges of their terms. -/
theorem workingValuesFit : Obligations.WorkingValuesFit := by
  intro st s h
  obtain ⟨hstepLo, hstepHi⟩ := stepSize_range st.stepIndex h
  obtain ⟨hadjLo, hadjHi⟩ := indexAdjust_range s
  have hdiff : sampleDiff (stepSize st.stepIndex) s ≤ 61436 := by
    have := sampleDiff_le (stepSize st.stepIndex) s
    omega
  have hpredLo : -32768 ≤ st.predictor.toInt := st.predictor.le_toInt
  have hpredHi : st.predictor.toInt < 32768 := st.predictor.toInt_lt
  exact ⟨hstepLo, hstepHi, hdiff, by omega, by omega, by omega, by omega⟩

end Sys2Proof.Machine
end

section
/-! The block decoder's one completing effect and its two stops (42_block_decoder.md R100, R101, R107, R108). -/

namespace Sys2Proof.Machine

variable {s t : State} {c : Nat}

/-- The entries BLOCK_DECODE `c` appends from `s`: the codes of the bytes behind the `c` preambles, decoded round-robin from
the scratch file those preambles install (42_block_decoder.md R100 to R103). -/
def State.blockEntries (s : State) (c : Nat) : List OutEntry :=
  decodeRoundRobin s.straps.variant c 0 (preamblesAt s.straps s.inBuf s.inCur.toNat c)
    (blockCodes (Memory.bytesAt s.inBuf (s.inCur.toNat + 4 * c) (s.inAvail - 4 * c)))

/-- The state BLOCK_DECODE `c` leaves when it completes, its response delivered (R100). -/
def State.afterBlockDecode (s : State) (c : Nat) : State :=
  { s with inCur := s.inLen, out := s.out ++ s.blockEntries c, responses := s.responses ++ [⟨.ok, s.inLen⟩] }

@[simp] theorem State.afterBlockDecode_ch : (s.afterBlockDecode c).ch = s.ch := rfl
@[simp] theorem State.afterBlockDecode_inCur : (s.afterBlockDecode c).inCur = s.inLen := rfl
@[simp] theorem State.afterBlockDecode_out : (s.afterBlockDecode c).out = s.out ++ s.blockEntries c := rfl

/-- Past all the unread bytes, if there are any, the cursor stands at the end of the buffer (R14). -/
theorem State.inCur_add_inAvail (h : 0 < s.inAvail) : s.inCur + BitVec.ofNat 32 s.inAvail = s.inLen := by
  apply BitVec.eq_of_toNat_eq
  rw [State.cursor_add le_rfl]
  unfold State.inAvail at *
  omega

/-- The preamble loop consumes four bytes per channel and nothing else (R101). -/
theorem State.inAvail_blockPreambles (hn : 4 * c ≤ s.inAvail) :
    (State.blockPreambles c s).2.inAvail = s.inAvail - 4 * c := by
  rw [State.blockPreambles_eq c s hn]
  simp only [State.inAvail, State.cursor_add hn]
  omega

/-- Both loops together append the block's entries, and the sink is all they change but the cursor. -/
theorem State.blockLoops_eq (h1 : 1 ≤ c) (hn : 4 * c ≤ s.inAvail) :
    (State.blockRun c (State.blockPreambles c s).2.inAvail 0 (State.blockPreambles c s)).2 =
      { s with inCur := s.inLen, out := s.out ++ s.blockEntries c } := by
  have hcur : s.inCur + BitVec.ofNat 32 (4 * c) + BitVec.ofNat 32 (s.inAvail - 4 * c) = s.inLen := by
    rw [BitVec.add_assoc, ← BitVec.ofNat_add, Nat.add_sub_cancel' hn, State.inCur_add_inAvail (by omega)]
  rw [State.blockRun_eq c _ 0 _ (State.blockPreambles c s).2 le_rfl, State.inAvail_blockPreambles hn,
    State.blockPreambles_eq c s hn]
  simp only [State.upcoming, State.cursor_add hn, hcur]
  rfl

/-- BLOCK_DECODE with a valid count and its preambles there completes (R100). -/
theorem exec_blockDecode (h1 : 1 ≤ c) (hc : c ≤ s.straps.nch) (hn : 4 * c ≤ s.inAvail) :
    exec (.blockDecode c) s = .next (s.afterBlockDecode c) := by
  have hcount : ¬ (c = 0 ∨ s.straps.nch < c) := by omega
  calc exec (.blockDecode c) s
    _ = (State.blockRun c (State.blockPreambles c s).2.inAvail 0 (State.blockPreambles c s)).2.finish :=
        (if_neg hcount).trans (if_neg (Nat.not_lt.mpr hn))
    _ = .next (s.afterBlockDecode c) := by rw [State.blockLoops_eq h1 hn]; rfl

/-- With a valid count and fewer bytes than its preambles it is stuck (R108). -/
theorem exec_blockDecode_short (h1 : 1 ≤ c) (hc : c ≤ s.straps.nch) (hn : s.inAvail < 4 * c) :
    exec (.blockDecode c) s = .fault .stuckShortInput :=
  (if_neg (by omega)).trans (if_pos hn)

/-- With a count of 0 or above `NCH` it is an illegal command (R107). -/
theorem exec_blockDecode_badCount (hc : c = 0 ∨ s.straps.nch < c) :
    exec (.blockDecode c) s = s.raise .illegalCommand := if_pos hc

/-- With a valid count BLOCK_DECODE answers a next state only with its preambles there. -/
theorem exec_blockDecode_next (h1 : 1 ≤ c) (hc : c ≤ s.straps.nch) (h : exec (.blockDecode c) s = .next t) :
    4 * c ≤ s.inAvail ∧ t = s.afterBlockDecode c := by
  rcases Nat.lt_or_ge s.inAvail (4 * c) with hn | hn
  · rw [exec_blockDecode_short h1 hc hn] at h
    cases h
  · rw [exec_blockDecode h1 hc hn] at h
    injection h with h
    exact ⟨hn, h.symm⟩

/-- Settles O38: the two loops append the block's entries; the stops are the two tests before them. -/
theorem blockDecodeResult : Obligations.BlockDecodeResult :=
  fun _ _ => ⟨exec_blockDecode, exec_blockDecode_short, exec_blockDecode_badCount⟩

end Sys2Proof.Machine
end

section
/-! The run of a round-robin decode: its length, its tags, and each channel's share of it (42_block_decoder.md R102, R104). -/

namespace Sys2Proof.Machine

theorem decodeRoundRobin_length (v : Variant) (c k : Nat) (bs : List ChannelState) (codes : List Code) :
    (decodeRoundRobin v c k bs codes).length = codes.length := by
  induction codes generalizing k bs with
  | nil => rfl
  | cons s rest ih => simp only [decodeRoundRobin, List.length_cons, ih]

/-- The code numbered `k + i` is tagged with its number modulo `c` (R102). -/
theorem decodeRoundRobin_getElem_chan (v : Variant) (c k : Nat) (bs : List ChannelState) (codes : List Code) (i : Nat)
    (h : i < (decodeRoundRobin v c k bs codes).length) :
    (decodeRoundRobin v c k bs codes)[i].chan = BitVec.ofNat 8 ((k + i) % c) := by
  induction codes generalizing k bs i with
  | nil => exact absurd h (Nat.not_lt_zero i)
  | cons s rest ih =>
    cases i with
    | zero => rfl
    | succ i =>
      rw [← Nat.add_assoc, Nat.add_right_comm]
      exact ih (k + 1) _ i (Nat.lt_of_succ_lt_succ h)

theorem blockCodes_length (bytes : List Byte) : (blockCodes bytes).length = 2 * bytes.length := by
  induction bytes with
  | nil => rfl
  | cons b rest ih => simp only [blockCodes, List.length_cons, ih]; omega

theorem State.blockEntries_length (s : State) (c : Nat) : (s.blockEntries c).length = 2 * (s.inAvail - 4 * c) := by
  rw [State.blockEntries, decodeRoundRobin_length, blockCodes_length, Memory.bytesAt_length]

/-- A remainder modulo at most 256 fits the tag of a sink entry (10_state.md R27). -/
theorem toNat_tag_mod {c : Nat} (k : Nat) (h1 : 0 < c) (hc : c ≤ 256) : (BitVec.ofNat 8 (k % c)).toNat = k % c := by
  rw [BitVec.toNat_ofNat]
  exact Nat.mod_eq_of_lt ((Nat.mod_lt k h1).trans_le hc)

/-- Settles O39: each byte has two codes and each code one entry, tagged with the code's number modulo `c`. -/
theorem blockDecodeTagsRoundRobin : Obligations.BlockDecodeTagsRoundRobin := by
  intro s t c h1 hc h
  obtain ⟨-, rfl⟩ := exec_blockDecode_next h1 hc h
  refine ⟨s.blockEntries c, rfl, s.blockEntries_length c, fun k hk => ?_⟩
  have htag : (s.blockEntries c)[k].chan = BitVec.ofNat 8 ((0 + k) % c) := decodeRoundRobin_getElem_chan ..
  rw [htag, Nat.zero_add, toNat_tag_mod k h1 (hc.trans (nch_le s.straps).2)]

theorem getD_set_self {bs : List ChannelState} {j : Nat} {st : ChannelState} (h : j < bs.length) :
    (bs.set j st).getD j ChannelState.zero = st := by
  rw [List.getD_eq_getElem?_getD, List.getElem?_set_self h, Option.getD_some]

theorem getD_set_ne {bs : List ChannelState} {i j : Nat} {st : ChannelState} (h : i ≠ j) :
    (bs.set i st).getD j ChannelState.zero = bs.getD j ChannelState.zero := by
  rw [List.getD_eq_getElem?_getD, List.getElem?_set_ne h, List.getD_eq_getElem?_getD]

/-- A round-robin decode whose first code has number `k`: a code of channel `j` moves only `j`'s scratch state, by the
sample decode, and a code of another channel leaves it alone. -/
theorem decodeRoundRobin_channel (v : Variant) {c j : Nat} (k : Nat) {bs : List ChannelState} (codes : List Code)
    (hc : c ≤ 256) (hj : j < c) (hbs : bs.length = c) :
    ((decodeRoundRobin v c k bs codes).filter (fun e => e.chan.toNat = j)).map OutEntry.sample =
      decodeCodes v (bs.getD j ChannelState.zero) (codesOfChannel c j k codes) := by
  induction codes generalizing k bs with
  | nil => rfl
  | cons s rest ih =>
    have htag := toNat_tag_mod k (Nat.zero_lt_of_lt hj) hc
    rw [decodeRoundRobin, List.filter_cons, codesOfChannel, htag]
    by_cases hk : k % c = j
    · rw [if_pos (decide_eq_true hk), if_pos hk, List.map_cons, ih (k + 1) (List.length_set.trans hbs), hk,
        getD_set_self (hbs ▸ hj)]
      rfl
    · rw [if_neg (by simpa using hk), if_neg hk, ih (k + 1) (List.length_set.trans hbs), getD_set_ne hk]

/-- Settles O40: the case of a list numbered from 0 on. -/
theorem roundRobinChannelsDecodeOwnCodes : Obligations.RoundRobinChannelsDecodeOwnCodes :=
  fun v _ _ _ codes hc hj hbs => decodeRoundRobin_channel v 0 codes hc hj hbs

end Sys2Proof.Machine
end

section
/-! What the block decoder's run depends on (42_block_decoder.md R105). -/

namespace Sys2Proof.Machine

variable {p p' : Straps} {m m' : List Host.Cell} {a a' : Nat}

/-- The install reads two of the straps (43_streaming.md R113). -/
theorem installPreamble_congr (hv : p.variant = p'.variant) (hp : p.preamblePredClamp = p'.preamblePredClamp) :
    installPreamble p = installPreamble p' := by
  unfold installPreamble
  rw [hv, hp]

theorem preambleAt_congr (hv : p.variant = p'.variant) (hp : p.preamblePredClamp = p'.preamblePredClamp)
    (h : ∀ i < 4, Memory.read m (a + i) = Memory.read m' (a' + i)) : preambleAt p m a = preambleAt p' m' a' := by
  have h0 : Memory.read m a = Memory.read m' a' := h 0 (by decide)
  rw [preambleAt, preambleAt, installPreamble_congr hv hp, h0, h 1 (by decide), h 2 (by decide), h 3 (by decide)]

theorem preamblesAt_congr (hv : p.variant = p'.variant) (hp : p.preamblePredClamp = p'.preamblePredClamp) {n : Nat}
    (h : ∀ i < 4 * n, Memory.read m (a + i) = Memory.read m' (a' + i)) : preamblesAt p m a n = preamblesAt p' m' a' n := by
  induction n generalizing a a' with
  | zero => rfl
  | succ n ih =>
    have hfirst := preambleAt_congr hv hp fun i hi => h i (by omega)
    have hrest : preamblesAt p m (a + 4) n = preamblesAt p' m' (a' + 4) n :=
      ih fun i hi => by simpa only [Nat.add_assoc] using h (4 + i) (by omega)
    rw [preamblesAt, preamblesAt, hfirst, hrest]

/-- R105: the block's entries are a function of the unread bytes, the count and these two straps. -/
theorem State.blockEntries_congr {s s' : State} {c : Nat} (hv : s.straps.variant = s'.straps.variant)
    (hp : s.straps.preamblePredClamp = s'.straps.preamblePredClamp) (hlen : s.inAvail = s'.inAvail)
    (hread : ∀ i < s.inAvail, Memory.read s.inBuf (s.inCur.toNat + i) = Memory.read s'.inBuf (s'.inCur.toNat + i))
    (hn : 4 * c ≤ s.inAvail) : s.blockEntries c = s'.blockEntries c := by
  have hscratch : preamblesAt s.straps s.inBuf s.inCur.toNat c = preamblesAt s'.straps s'.inBuf s'.inCur.toNat c :=
    preamblesAt_congr hv hp fun i hi => hread i (by omega)
  have hbody : Memory.bytesAt s.inBuf (s.inCur.toNat + 4 * c) (s.inAvail - 4 * c) =
      Memory.bytesAt s'.inBuf (s'.inCur.toNat + 4 * c) (s.inAvail - 4 * c) :=
    Memory.bytesAt_congr fun i hi => by simpa only [Nat.add_assoc] using hread (4 * c + i) (by omega)
  rw [State.blockEntries, State.blockEntries, hv, hscratch, hbody, hlen]

/-- Settles O41: the preambles are there in both states or in neither, and the run is the entries of either. -/
theorem blockDecodeIsPure : Obligations.BlockDecodeIsPure := by
  intro s s' t c h1 hc hc' hv hp hlen hread h
  obtain ⟨hn, rfl⟩ := exec_blockDecode_next h1 hc h
  refine ⟨s'.afterBlockDecode c, s.blockEntries c, exec_blockDecode h1 hc' (hlen ▸ hn), rfl, ?_, rfl, rfl, rfl, rfl⟩
  rw [State.afterBlockDecode_out, State.blockEntries_congr hv hp hlen hread hn]

end Sys2Proof.Machine
end

section
/-! The streaming loop with its response: PARSE, SKIP and PARSE_BLOCKS (43_streaming.md R116 to R123). -/

namespace Sys2Proof.Machine

variable {s : State} {emit : Bool} {c k n : Nat}

/-- PARSE and SKIP with their bytes there complete with the streaming loop (R116, R122). -/
theorem exec_streamPart_of_le (hc : c < s.straps.nch) (hn : n ≤ s.inAvail) :
    exec (streamPart c (emit, n)) s = (State.decodeRun emit c n s).finish :=
  (exec_streamPart hc).trans (if_neg (Nat.not_lt.mpr hn))

/-- PARSE and SKIP with fewer bytes than they name are stuck (R118). -/
theorem exec_streamPart_short (hc : c < s.straps.nch) (hn : s.inAvail < n) :
    exec (streamPart c (emit, n)) s = .fault .stuckShortInput :=
  (exec_streamPart hc).trans (if_pos hn)

/-- The loop's effect with its response delivered, when the samples are appended (R116). -/
theorem State.finish_parseRun (hn : n ≤ s.inAvail) (hc : c < s.ch.length) :
    (State.decodeRun true c n s).finish = .next
      { s with
        ch := s.ch.set c (decodeBytes s.straps (s.readCh c) (s.upcoming n)).1
        inCur := s.inCur + BitVec.ofNat 32 n
        out := s.out ++ tagSamples c (decodeBytes s.straps (s.readCh c) (s.upcoming n)).2
        responses := s.responses ++ [⟨.ok, s.inCur + BitVec.ofNat 32 n⟩] } := by
  rw [State.decodeRun_eq true c n s hn hc]
  rfl

/-- The loop's effect with its response delivered, when the samples are discarded (R122). -/
theorem State.finish_skipRun (hn : n ≤ s.inAvail) (hc : c < s.ch.length) :
    (State.decodeRun false c n s).finish = .next
      { s with
        ch := s.ch.set c (decodeBytes s.straps (s.readCh c) (s.upcoming n)).1
        inCur := s.inCur + BitVec.ofNat 32 n
        responses := s.responses ++ [⟨.ok, s.inCur + BitVec.ofNat 32 n⟩] } := by
  rw [State.decodeRun_eq false c n s hn hc, if_neg Bool.false_ne_true, List.append_nil]
  rfl

/-- Every byte gives two samples (R117). -/
theorem State.decodeBytes_upcoming_length (s : State) (st : ChannelState) (n : Nat) :
    (decodeBytes s.straps st (s.upcoming n)).2.length = 2 * n := by
  rw [decodeBytes_length, State.upcoming, Memory.bytesAt_length]

/-- Settles O31: a valid channel's PARSE is the streaming loop behind the test of the unread bytes. -/
theorem parseDecodesBytes : Obligations.ParseDecodesBytes := by
  intro s c n hs
  refine ⟨fun hc hn => ⟨?_, State.cursor_add hn, s.decodeBytes_upcoming_length _ n⟩,
    exec_streamPart_short (emit := true), State.onChannel_of_le⟩
  exact (exec_streamPart_of_le (emit := true) hc hn).trans (State.finish_parseRun hn (hs.lt_length hc))

/-- Settles O32: SKIP is the same loop with the samples discarded. -/
theorem skipDecodesAndDiscards : Obligations.SkipDecodesAndDiscards := by
  intro s c n hs
  refine ⟨fun hc hn => ⟨?_, State.cursor_add hn⟩, exec_streamPart_short (emit := false), State.onChannel_of_le⟩
  exact (exec_streamPart_of_le (emit := false) hc hn).trans (State.finish_skipRun hn (hs.lt_length hc))

/-- PARSE_BLOCKS on a valid channel decodes the whole groups, unless it would reach a partial one (R120, R121). -/
theorem exec_parseBlocks (hc : c < s.straps.nch) :
    exec (.parseBlocks c k) s =
      if s.inAvail / 4 < k ∧ s.inAvail % 4 ≠ 0 then .fault .stuckPartialGroup
      else (State.decodeRun true c (4 * min k (s.inAvail / 4)) s).finish :=
  State.onChannel_of_lt hc

/-- Settles O33: the whole groups lie inside the unread bytes, so the loop over them is PARSE's. -/
theorem parseBlocksDecodesWholeGroups : Obligations.ParseBlocksDecodesWholeGroups := by
  intro s c k hs
  have hn := s.wholeGroups_le_inAvail k
  refine ⟨fun hc hk => ⟨?_, State.cursor_add hn, s.decodeBytes_upcoming_length ..⟩, fun hc hk hpart => ?_,
    State.onChannel_of_le⟩
  · rw [exec_parseBlocks hc, if_neg (by omega)]
    exact State.finish_parseRun hn (hs.lt_length hc)
  · rw [exec_parseBlocks hc, if_pos ⟨hk, hpart⟩]

end Sys2Proof.Machine
end

section
/-! What a preamble installs, and SEED_BYTES over the whole channel file (43_streaming.md R113, R115, R118). -/

namespace Sys2Proof.Machine

variable {s : State}

/-- A predictor operand in the range of its field fits the predictor register (10_state.md R21). -/
theorem toInt_predictorOperand {pred : Int} (hlo : -32768 ≤ pred) (hhi : pred ≤ 32767) :
    (BitVec.ofInt 16 pred).toInt = pred :=
  toInt_ofInt_16 ⟨hlo, by omega⟩

/-- Settles O28: the clamped and the unclamped predictor both fit the register, and so does a clamped index. -/
theorem preambleInstallsClampedState : Obligations.PreambleInstallsClampedState := by
  intro p pred idx hlo hhi
  refine ⟨?_, toNat_clampStepIndex idx⟩
  unfold installPreamble
  split
  · exact toInt_clampPredictor p.variant pred
  · exact toInt_predictorOperand hlo hhi

/-- SEED_BYTES with every channel's preamble there fills the channel file from them (R115). -/
theorem exec_seedBytes (hs : s.Inv) (hn : 4 * s.straps.nch ≤ s.inAvail) :
    exec .seedBytes s = .next
      { s with
        ch := preamblesAt s.straps s.inBuf s.inCur.toNat s.straps.nch
        inCur := s.inCur + BitVec.ofNat 32 (4 * s.straps.nch)
        responses := s.responses ++ [⟨.ok, s.inCur + BitVec.ofNat 32 (4 * s.straps.nch)⟩] } := by
  have hrun := State.seedRun_eq s.straps.nch 0 s hn (hs.channels.trans (Nat.zero_add _).symm)
  rw [List.take_zero, List.nil_append] at hrun
  calc exec .seedBytes s
    _ = (State.seedRun s.straps.nch 0 s).finish := if_neg (Nat.not_lt.mpr hn)
    _ = _ := by rw [hrun]; rfl

/-- With fewer bytes than the preambles of all channels it is stuck (R118). -/
theorem exec_seedBytes_short (hn : s.inAvail < 4 * s.straps.nch) : exec .seedBytes s = .fault .stuckShortInput :=
  if_pos hn

/-- Settles O30: channel `c` holds preamble number `c`, whose four bytes begin `4 * c` bytes behind the cursor. -/
theorem seedBytesSeedsEveryChannel : Obligations.SeedBytesSeedsEveryChannel := by
  intro s hs
  refine ⟨fun hn => ⟨_, exec_seedBytes hs hn, preamblesAt_length .., fun c hc => ?_, State.cursor_add hn, rfl⟩,
    exec_seedBytes_short⟩
  exact preamblesAt_getD s.straps s.inBuf s.inCur.toNat s.straps.nch c hc

end Sys2Proof.Machine
end

section
/-! The nibbles of a byte, and the commands that consume no input (43_streaming.md R112, R114, R125 to R130). -/

namespace Sys2Proof.Machine

theorem lowNibble_toNat (b : Byte) : (lowNibble b).toNat = b.toNat % 16 := BitVec.extractLsb'_toNat 0 4 b

theorem highNibble_toNat (b : Byte) : (highNibble b).toNat = b.toNat / 16 := by
  have hb := b.isLt
  rw [highNibble, BitVec.extractLsb'_toNat, Nat.shiftRight_eq_div_pow]
  omega

/-- Settles O27: each order names the two nibbles of the byte, in its own order. -/
theorem nibbleOrderOfByte : Obligations.NibbleOrderOfByte :=
  fun b => ⟨lowNibble_toNat b, highNibble_toNat b, highNibble_toNat b, lowNibble_toNat b⟩

/-- Settles O29: on a valid channel SEED is the write of the installed state; the channel check answers otherwise. -/
theorem seedInstallsPreamble : Obligations.SeedInstallsPreamble :=
  fun _ _ _ _ => ⟨State.onChannel_of_lt, State.onChannel_of_le⟩

theorem ChannelState.snapshot_low (st : ChannelState) : st.snapshot.extractLsb' 0 16 = st.predictor :=
  BitVec.extractLsb'_append_eq_right

theorem ChannelState.snapshot_high (st : ChannelState) :
    (st.snapshot.extractLsb' 16 16).toNat = st.stepIndex.toNat := by
  rw [ChannelState.snapshot, BitVec.extractLsb'_append_eq_left, BitVec.toNat_setWidth_of_le (by decide)]

/-- Settles O34: the answer is the snapshot word of the channel's state, whose halves are its two fields. -/
theorem getStateAnswersSnapshot : Obligations.GetStateAnswersSnapshot := fun s c =>
  ⟨fun hc => ⟨(s.readCh c).snapshot, State.onChannel_of_lt hc, (s.readCh c).snapshot_low, (s.readCh c).snapshot_high⟩,
    State.onChannel_of_le⟩

/-- A step index of the table fits the step-index register (10_state.md R22). -/
theorem toNat_indexOperand {idx : Nat} (h : idx ≤ 88) : (BitVec.ofNat 7 idx).toNat = idx := by
  rw [BitVec.toNat_ofNat]
  omega

/-- SET_STATE on a valid channel copies its operand pair, unless no channel can hold the index (R126, R127). -/
theorem exec_setState {s : State} {c idx : Nat} {pred : Int} (hc : c < s.straps.nch) :
    exec (.setState c pred idx) s =
      if 88 < idx then .refused .impossibleSnapshot
      else (s.writeCh c ⟨BitVec.ofInt 16 pred, BitVec.ofNat 7 idx⟩).finish :=
  State.onChannel_of_lt hc

/-- Settles O35: both operands fit their registers, so the copy is exact; the channel check stands before the index test. -/
theorem setStateCopiesOrRefuses : Obligations.SetStateCopiesOrRefuses := by
  intro s c pred idx _ hlo hhi
  refine ⟨fun hc hi => ⟨⟨BitVec.ofInt 16 pred, BitVec.ofNat 7 idx⟩, toInt_predictorOperand hlo hhi,
    toNat_indexOperand hi, ?_⟩, fun hc hi => ?_, State.onChannel_of_le⟩
  · rw [exec_setState hc, if_neg (Nat.not_lt.mpr hi)]
    rfl
  · rw [exec_setState hc, if_pos hi]

/-- Settles O36: the cursor holds every 32-bit position. -/
theorem seekSetsCursor : Obligations.SeekSetsCursor :=
  fun _ pos hpos => ⟨BitVec.ofNat 32 pos, toNat_unsigned32 (isUnsigned32_iff.mpr hpos), rfl⟩

end Sys2Proof.Machine
end

section
/-! ENCODE, the command with no function: its one effect is the error response (44_encoder_stub.md R140). -/

namespace Sys2Proof.Machine

/-- Raising an error is one more response with `VAL` 0, and no other change (60_exceptions.md R160). -/
theorem State.raise_eq (s : State) (kind : Status) :
    s.raise kind = .next { s with responses := s.responses ++ [⟨kind, 0⟩] } := rfl

theorem exec_encodeStub (s : State) : exec .encodeStub s = s.raise .notImplemented := rfl

theorem notImplementedResponse_word : (Response.mk .notImplemented 0).word = 0x0200000000000000#64 := by decide

/-- Settles O37: ENCODE raises NotImplemented from every state, and raising adds the response alone. -/
theorem encodeAlwaysFails : Obligations.EncodeAlwaysFails :=
  fun s => ⟨(exec_encodeStub s).trans (s.raise_eq .notImplemented), notImplementedResponse_word⟩

end Sys2Proof.Machine
end

section
/-! Error responses and the channels a command does not name (45_laws.md R152, R153). -/

namespace Sys2Proof.Machine

/-- Settles O43: a response that is not `OK` is the error effect's, which leaves the state and answers `VAL` 0. -/
theorem errorsChangeNothing : Obligations.ErrorsChangeNothing := by
  intro i s t r h hresponses hr
  obtain ⟨u, r', he, rfl⟩ := exec_next_effect h
  obtain rfl : r' = r := by
    rw [State.respond_responses, he.extends.responses] at hresponses
    exact List.singleton_inj.mp (List.append_cancel_left hresponses)
  obtain ⟨rfl, hval⟩ := he.error_eq hr
  exact ⟨rfl, hval⟩

/-- A command that names channel `a` writes no other channel (R152). -/
theorem CommandEffect.readCh_ne {i : Instr} {s u : State} {r : Response} {a b : Nat} (h : CommandEffect i s u r)
    (ha : i.channel? = some a) (hb : b ≠ a) : u.readCh b = s.readCh b := by
  cases h with
  | seed | setState =>
    obtain rfl := Option.some.inj ha
    exact State.readCh_writeCh_ne s _ hb
  | parse | parseBlocks | skip =>
    obtain rfl := Option.some.inj ha
    exact State.readCh_decodeRun_ne _ _ s hb
  | getState | error => rfl
  | seedBytes | blockDecode | seek => cases ha

/-- Settles O45: a command's effect writes at most the channel it names, and its response writes none. -/
theorem channelsAreIndependent : Obligations.ChannelsAreIndependent := by
  intro i s t a b ha h hb
  obtain ⟨u, r, he, rfl⟩ := exec_next_effect h
  exact he.readCh_ne ha hb

end Sys2Proof.Machine
end

section
/-! One part of a stream: the state PARSE or SKIP leaves, and how a part continues the one before (45_laws.md R146, R147). -/

namespace Sys2Proof.Machine

variable {s t : State} {emit : Bool} {c m n : Nat}

/-- The state of channel `c` once the next `n` bytes are decoded for it (43_streaming.md R116). -/
def State.streamState (s : State) (c n : Nat) : ChannelState := (decodeBytes s.straps (s.readCh c) (s.upcoming n)).1

/-- The sink entries of the next `n` bytes, decoded for channel `c` (43_streaming.md R116). -/
def State.streamEntries (s : State) (c n : Nat) : List OutEntry :=
  tagSamples c (decodeBytes s.straps (s.readCh c) (s.upcoming n)).2

/-- The state the part `(emit, n)` of a stream on channel `c` leaves, its response delivered (43_streaming.md R116, R122). -/
def State.afterPart (s : State) (emit : Bool) (c n : Nat) : State :=
  { s with
    ch := s.ch.set c (s.streamState c n)
    inCur := s.inCur + BitVec.ofNat 32 n
    out := s.out ++ if emit then s.streamEntries c n else []
    responses := s.responses ++ [⟨.ok, s.inCur + BitVec.ofNat 32 n⟩] }

@[simp] theorem State.afterPart_straps : (s.afterPart emit c n).straps = s.straps := rfl
@[simp] theorem State.afterPart_ch : (s.afterPart emit c n).ch = s.ch.set c (s.streamState c n) := rfl
@[simp] theorem State.afterPart_inCur : (s.afterPart emit c n).inCur = s.inCur + BitVec.ofNat 32 n := rfl
@[simp] theorem State.afterPart_inBuf : (s.afterPart emit c n).inBuf = s.inBuf := rfl
@[simp] theorem State.afterPart_inLen : (s.afterPart emit c n).inLen = s.inLen := rfl
@[simp] theorem State.afterPart_out :
    (s.afterPart emit c n).out = s.out ++ if emit then s.streamEntries c n else [] := rfl

/-- PARSE and SKIP with their bytes there complete and leave that state. -/
theorem exec_streamPart_eq (hs : s.Inv) (hc : c < s.straps.nch) (hn : n ≤ s.inAvail) :
    exec (streamPart c (emit, n)) s = .next (s.afterPart emit c n) := by
  rw [exec_streamPart_of_le hc hn, State.decodeRun_eq emit c n s hn (hs.lt_length hc)]
  rfl

theorem exec_parse_eq (hs : s.Inv) (hc : c < s.straps.nch) (hn : n ≤ s.inAvail) :
    exec (.parse c n) s = .next (s.afterPart true c n) := exec_streamPart_eq (emit := true) hs hc hn

theorem exec_skip_eq (hs : s.Inv) (hc : c < s.straps.nch) (hn : n ≤ s.inAvail) :
    exec (.skip c n) s = .next (s.afterPart false c n) := exec_streamPart_eq (emit := false) hs hc hn

/-- A completed command keeps the invariant. -/
theorem State.Inv.exec_next {i : Instr} (hs : s.Inv) (h : exec i s = .next t) : t.Inv := by
  obtain ⟨_, _, he, rfl⟩ := exec_next_effect h
  exact (he.inv hs).respond fun hk => (he.error_eq hk).2

theorem State.Inv.afterPart (hs : s.Inv) (hc : c < s.straps.nch) (hn : n ≤ s.inAvail) : (s.afterPart emit c n).Inv :=
  hs.exec_next (exec_streamPart_eq hs hc hn)

/-! ### A part continues the stream where the one before left it -/

theorem State.streamEntries_length : (s.streamEntries c n).length = 2 * n := by
  rw [State.streamEntries, tagSamples, List.length_map, State.decodeBytes_upcoming_length]

theorem State.inAvail_afterPart (hn : n ≤ s.inAvail) : (s.afterPart emit c n).inAvail = s.inAvail - n := by
  simp only [State.inAvail, State.afterPart_inLen, State.afterPart_inCur, State.cursor_add hn]
  omega

theorem State.readCh_afterPart (hc : c < s.ch.length) : (s.afterPart emit c n).readCh c = s.streamState c n :=
  State.readCh_writeCh_same s c _ hc

/-- The next `n + m` bytes are the next `n`, and then the next `m` behind a part of `n` bytes (20_memory.md R53). -/
theorem State.upcoming_add (hn : n ≤ s.inAvail) :
    s.upcoming (n + m) = s.upcoming n ++ (s.afterPart emit c n).upcoming m := by
  simp only [State.upcoming, Memory.bytesAt_add, State.afterPart_inBuf, State.afterPart_inCur, State.cursor_add hn]

theorem State.streamState_add (emit : Bool) (hc : c < s.ch.length) (hn : n ≤ s.inAvail) :
    s.streamState c (n + m) = (s.afterPart emit c n).streamState c m := by
  have hread : (s.afterPart emit c n).readCh c = s.streamState c n := State.readCh_afterPart hc
  rw [State.streamState, State.upcoming_add hn, decodeBytes_append, State.streamState, hread]
  rfl

theorem State.streamEntries_add (emit : Bool) (hc : c < s.ch.length) (hn : n ≤ s.inAvail) :
    s.streamEntries c (n + m) = s.streamEntries c n ++ (s.afterPart emit c n).streamEntries c m := by
  have hread : (s.afterPart emit c n).readCh c = s.streamState c n := State.readCh_afterPart hc
  rw [State.streamEntries, State.upcoming_add hn, decodeBytes_append, State.streamEntries, State.streamEntries, hread]
  exact List.map_append

end Sys2Proof.Machine
end

section
/-! Laws of streams: chunks, mixed parts, skips and whole groups (45_laws.md R146 to R149). -/

namespace Sys2Proof.Machine

/-- Settles O50: the second chunk continues the stream where the first left it. -/
theorem parseChunkingInvariance : Obligations.ParseChunkingInvariance := by
  intro s c n p hs hc hp hn
  have hpn : p ≤ s.inAvail := hp.trans hn
  have hlen := hs.lt_length hc
  obtain ⟨q, rfl⟩ := Nat.exists_eq_add_of_le hp
  have hrest : q ≤ (s.afterPart true c p).inAvail := by
    rw [State.inAvail_afterPart hpn]
    omega
  have hsecond : exec (.parse c (p + q - p)) (s.afterPart true c p) = .next ((s.afterPart true c p).afterPart true c q) := by
    rw [Nat.add_sub_cancel_left]
    exact exec_parse_eq (hs.afterPart hc hpn) hc hrest
  refine ⟨_, _, _, exec_parse_eq hs hc hpn, hsecond, exec_parse_eq hs hc hn, ?_, ?_, ?_⟩
  · simp only [State.afterPart_ch, List.set_set, State.streamState_add true hlen hpn]
  · simp only [State.afterPart_inCur, BitVec.ofNat_add, BitVec.add_assoc]
  · simp only [State.afterPart_out, if_true, List.append_assoc, State.streamEntries_add true hlen hpn]

theorem runCommands_cons {i : Instr} {rest : List Instr} {s t : State} (h : exec i s = .next t) :
    runCommands (i :: rest) s = runCommands rest t := by
  rw [runCommands, h]

/-- Keeping the parsed parts of a stream whose first `2 * n` entries are the first part's (R147 (b)). -/
theorem keepParsed_cons_append {emit : Bool} {n : Nat} {es : List OutEntry} (rest : List (Bool × Nat))
    (fs : List OutEntry) (h : es.length = 2 * n) :
    keepParsed ((emit, n) :: rest) (es ++ fs) = (if emit then es else []) ++ keepParsed rest fs := by
  rw [keepParsed, List.take_left' h, List.drop_left' h]

/-- The parts of a stream, run one after another, leave the channel state and the cursor of the whole stream and append its
entries less those of the skipped parts: each part continues the one before (R147). -/
theorem runCommands_streamParts {s : State} {c : Nat} (parts : List (Bool × Nat)) (hs : s.Inv) (hc : c < s.straps.nch)
    (hn : partsLength parts ≤ s.inAvail) :
    ∃ t, runCommands (parts.map (streamPart c)) s = some t ∧ t.ch = s.ch.set c (s.streamState c (partsLength parts)) ∧
      t.inCur = s.inCur + BitVec.ofNat 32 (partsLength parts) ∧
      t.out = s.out ++ keepParsed parts (s.streamEntries c (partsLength parts)) := by
  induction parts generalizing s with
  | nil => exact ⟨s, rfl, (set_getD_self s.ch c (hs.lt_length hc)).symm, (BitVec.add_zero _).symm, (List.append_nil _).symm⟩
  | cons part rest ih =>
    obtain ⟨emit, n⟩ := part
    have hlen := hs.lt_length hc
    simp only [partsLength] at hn ⊢
    have hpart : n ≤ s.inAvail := by omega
    obtain ⟨t, hrun, hch, hcur, hout⟩ := ih (s := s.afterPart emit c n) (hs.afterPart hc hpart) hc (by
      rw [State.inAvail_afterPart hpart]
      omega)
    refine ⟨t, (runCommands_cons (exec_streamPart_eq hs hc hpart)).trans hrun, ?_, ?_, ?_⟩
    · rw [hch, State.afterPart_ch, List.set_set, State.streamState_add emit hlen hpart]
    · rw [hcur, State.afterPart_inCur, BitVec.ofNat_add, BitVec.add_assoc]
    · rw [hout, State.afterPart_out, List.append_assoc, State.streamEntries_add emit hlen hpart,
        keepParsed_cons_append rest _ State.streamEntries_length]

/-- Settles O51: the single PARSE is the one part of all the bytes. -/
theorem streamPartsAgreeWithOneParse : Obligations.StreamPartsAgreeWithOneParse := by
  intro s c parts hs hc hn
  obtain ⟨t, hrun, hch, hcur, hout⟩ := runCommands_streamParts parts hs hc hn
  exact ⟨t, _, _, hrun, exec_parse_eq hs hc hn, hch, hcur, rfl, hout⟩

theorem exec_getState {s : State} {c : Nat} (hc : c < s.straps.nch) :
    exec (.getState c) s = .next (s.respond .ok (s.readCh c).snapshot) := State.onChannel_of_lt hc

/-- Settles O52: both parts leave the same state but for the sink, so GET_STATE answers the same snapshot. -/
theorem skipAndParseLeaveSameState : Obligations.SkipAndParseLeaveSameState := by
  intro s c n hs hc hn
  exact ⟨s.afterPart false c n, s.afterPart true c n, _, _, _, s.streamEntries c n, exec_skip_eq hs hc hn,
    exec_parse_eq hs hc hn, exec_getState hc, exec_getState hc, rfl, rfl, List.append_nil _, rfl,
    State.streamEntries_length⟩

/-- PARSE_BLOCKS that reaches no partial group is the PARSE of its groups (43_streaming.md R120). -/
theorem exec_parseBlocks_eq_parse {s : State} {c k : Nat} (hc : c < s.straps.nch)
    (hk : k ≤ s.inAvail / 4 ∨ s.inAvail % 4 = 0) :
    exec (.parseBlocks c k) s = exec (.parse c (4 * min k (s.inAvail / 4))) s := by
  rw [exec_parseBlocks hc, if_neg (by omega)]
  exact (exec_streamPart_of_le (emit := true) hc (s.wholeGroups_le_inAvail k)).symm

/-- Settles O53: there are `k` groups, or the groups are all the unread bytes. -/
theorem parseBlocksIsParseOfWholeGroups : Obligations.ParseBlocksIsParseOfWholeGroups := by
  intro s c k hc
  constructor
  · intro hk
    rw [exec_parseBlocks_eq_parse hc (.inl (by omega)), Nat.min_eq_left (by omega)]
  · intro hmod hk
    rw [exec_parseBlocks_eq_parse hc (.inr hmod), show 4 * min k (s.inAvail / 4) = s.inAvail by omega]

end Sys2Proof.Machine
end

section
/-! Snapshots and loop points: SET_STATE restores what GET_STATE read (45_laws.md R150; 43_streaming.md R129). -/

namespace Sys2Proof.Machine

theorem State.Inv.readCh_index_le {s : State} {c : Nat} (hs : s.Inv) (hc : c < s.straps.nch) :
    (s.readCh c).stepIndex.toNat ≤ 88 := by
  have hlen := hs.lt_length hc
  rw [State.readCh, List.getD_eq_getElem _ _ hlen]
  exact hs.indices _ (List.getElem_mem hlen)

/-- SET_STATE of the two fields of a possible channel state installs that state (R126). -/
theorem exec_setState_fields {u : State} {d : Nat} {st : ChannelState} (hd : d < u.straps.nch)
    (hst : st.stepIndex.toNat ≤ 88) :
    exec (.setState d st.predictor.toInt st.stepIndex.toNat) u = .next ((u.writeCh d st).respond .ok u.inCur) := by
  rw [exec_setState hd, if_neg (Nat.not_lt.mpr hst), BitVec.ofInt_toInt, BitVec.ofNat_toNat, BitVec.setWidth_eq]
  rfl

/-- The SET_STATE word that carries a snapshot spells SET_STATE of the two fields of the state it was taken from
(30_encoding.md R62, R67). -/
theorem decode_setState_snapshot {d : Nat} (hd : d < 2 ^ 8) (st : ChannelState) :
    decode (packCommand 0x07 (BitVec.ofNat 8 d) st.snapshot) = .ok (.setState d st.predictor.toInt st.stepIndex.toNat) := by
  have hlow : argLow st.snapshot = st.predictor := st.snapshot_low
  have hhigh : (argHigh st.snapshot).toNat = st.stepIndex.toNat := st.snapshot_high
  rw [decode_pack, decodeFields_setState, hlow, hhigh, toNat_channelField (isChannelField_iff.mpr hd)]

/-- Settles O54: the word spells SET_STATE of the first channel's fields, whose index the invariant bounds. -/
theorem snapshotRestoresChannelState : Obligations.SnapshotRestoresChannelState := by
  intro s u c d hs hu hc hd
  have hfield : d < 2 ^ 8 := hd.trans_le (nch_le u.straps).2
  exact ⟨_, _, _, exec_getState hc, decode_setState_snapshot hfield (s.readCh c),
    exec_setState_fields hd (hs.readCh_index_le hc), State.readCh_writeCh_same u d _ (hu.lt_length hd)⟩

/-- What a part of a stream decodes depends on the straps, the buffer, the cursor and its own channel's state alone. -/
theorem State.decode_upcoming_congr {s w : State} {c : Nat} (hstraps : w.straps = s.straps) (hbuf : w.inBuf = s.inBuf)
    (hcur : w.inCur = s.inCur) (hst : w.readCh c = s.readCh c) (n : Nat) :
    w.streamState c n = s.streamState c n ∧ w.streamEntries c n = s.streamEntries c n := by
  simp only [State.streamState, State.streamEntries, State.upcoming, hstraps, hbuf, hcur, hst, and_self]

/-- The state SEEK to `pos` and SET_STATE of channel `c` to `st` leave, their responses delivered (43_streaming.md R129). -/
def State.atLoopPoint (w : State) (c : Nat) (pos : Word) (st : ChannelState) : State :=
  (((w.setCursor pos.toNat).respond .ok pos).writeCh c st).respond .ok pos

theorem State.inCur_atLoopPoint (w : State) (c : Nat) (pos : Word) (st : ChannelState) :
    (w.atLoopPoint c pos st).inCur = pos := BitVec.ofNat_toNat 32 pos

theorem State.inAvail_atLoopPoint (w : State) (c : Nat) (pos : Word) (st : ChannelState) :
    (w.atLoopPoint c pos st).inAvail = w.inLen.toNat - pos.toNat := by
  rw [State.inAvail, State.inCur_atLoopPoint]
  rfl

theorem State.readCh_atLoopPoint {w : State} {c : Nat} (pos : Word) (st : ChannelState) (hc : c < w.ch.length) :
    (w.atLoopPoint c pos st).readCh c = st :=
  State.readCh_writeCh_same ((w.setCursor pos.toNat).respond .ok pos) c st hc

theorem State.out_atLoopPoint (w : State) (c : Nat) (pos : Word) (st : ChannelState) :
    (w.atLoopPoint c pos st).out = w.out := rfl

theorem State.Inv.atLoopPoint {w : State} {st : ChannelState} (hw : w.Inv) (c : Nat) (pos : Word)
    (hst : st.stepIndex.toNat ≤ 88) : (w.atLoopPoint c pos st).Inv :=
  (((hw.setCursor pos.toNat).respond (absurd rfl)).writeCh c hst).respond (absurd rfl)

/-- SEEK and SET_STATE of a possible channel state set up the loop point (R126, R130). -/
theorem runCommands_loopPoint {w : State} {c : Nat} {st : ChannelState} (pos : Word) (rest : List Instr)
    (hc : c < w.straps.nch) (hst : st.stepIndex.toNat ≤ 88) :
    runCommands (.seek pos.toNat :: .setState c st.predictor.toInt st.stepIndex.toNat :: rest) w =
      runCommands rest (w.atLoopPoint c pos st) := by
  have hpos : (w.setCursor pos.toNat).inCur = pos := BitVec.ofNat_toNat 32 pos
  have hseek : exec (.seek pos.toNat) w = .next ((w.setCursor pos.toNat).respond .ok pos) :=
    congrArg (fun v => Host.Outcome.next ((w.setCursor pos.toNat).respond .ok v)) hpos
  rw [runCommands_cons hseek,
    runCommands_cons (exec_setState_fields (u := (w.setCursor pos.toNat).respond .ok pos) hc hst), State.respond_inCur,
    hpos, State.atLoopPoint]

/-- Settles O55: at the loop point the cursor and the channel's state are those of the first pass, and the straps and the
buffer have not changed, so PARSE decodes the same stream. -/
theorem loopReentryRepeatsSamples : Obligations.LoopReentryRepeatsSamples := by
  intro s t w c n hs hw hc hn hstraps hbuf hlen h
  rw [exec_parse_eq hs hc hn] at h
  injection h with h
  subst h
  have hst := hs.readCh_index_le hc
  have hcw : c < w.straps.nch := hstraps ▸ hc
  have hv := hw.atLoopPoint c s.inCur hst
  have hcur := w.inCur_atLoopPoint c s.inCur (s.readCh c)
  have hch := State.readCh_atLoopPoint s.inCur (s.readCh c) (hw.lt_length hcw)
  have hnv : n ≤ (w.atLoopPoint c s.inCur (s.readCh c)).inAvail := by
    rw [State.inAvail_atLoopPoint, hlen]
    exact hn
  obtain ⟨hstate, hentries⟩ := State.decode_upcoming_congr (w := w.atLoopPoint c s.inCur (s.readCh c)) hstraps hbuf
    hcur hch n
  refine ⟨_, s.streamEntries c n, (runCommands_loopPoint s.inCur _ hcw hst).trans
    (runCommands_cons (exec_parse_eq hv hcw hnv)), rfl, ?_, ?_, ?_⟩
  · rw [State.afterPart_out, if_pos rfl, hentries, State.out_atLoopPoint]
  · rw [State.readCh_afterPart (hv.lt_length hcw), State.readCh_afterPart (hs.lt_length hc), hstate]
  · rw [State.afterPart_inCur, hcur, State.afterPart_inCur]

end Sys2Proof.Machine
end

section
/-! The two variants differ only where the floor acts (45_laws.md R154; 40_tables_and_policy.md R85, R86). -/

namespace Sys2Proof

/-- The same straps under another `VARIANT` (00_scope.md R6). -/
def Straps.withVariant (p : Straps) (v : Variant) : Straps := { p with variant := v }

@[simp] theorem Straps.withVariant_variant (p : Straps) (v : Variant) : (p.withVariant v).variant = v := rfl

@[simp] theorem Straps.withVariant_nibbleOrder (p : Straps) (v : Variant) :
    (p.withVariant v).nibbleOrder = p.nibbleOrder := rfl

end Sys2Proof

namespace Sys2Proof.Machine

variable {p : Straps} {st : ChannelState}

/-- At the IMA floor the NDS clamp answers its own floor (R84, R85). -/
theorem clampPredictor_nds_of_ima_floor {q : Int} (h : clampPredictor .ima q = -32768) : clampPredictor .nds q = -32767 := by
  simp only [clampPredictor, predictorFloor] at h ⊢
  omega

/-- Above the IMA floor the two clamps agree (R85). -/
theorem clampPredictor_nds_eq_ima {q : Int} (h : clampPredictor .ima q ≠ -32768) :
    clampPredictor .nds q = clampPredictor .ima q := by
  refine ((clampPredictor_ima_eq_nds_iff q).mpr ?_).symm
  simp only [clampPredictor, predictorFloor] at h
  omega

/-- A sample that IMA decodes above its floor is NDS's sample, and the state left is the same. -/
theorem decodeSample_nds_eq_ima {s : Code} (h : (decodeSample .ima st s).2.toInt ≠ -32768) :
    decodeSample .nds st s = decodeSample .ima st s := by
  rw [decodeSample_sample, decodeSample_predictor] at h
  simp only [decodeSample, nextPredictor, clampPredictor_nds_eq_ima h]

/-- A sample that IMA decodes at its floor is -32767 under NDS. -/
theorem decodeSample_nds_of_ima_floor {s : Code} (h : (decodeSample .ima st s).2.toInt = -32768) :
    (decodeSample .nds st s).2.toInt = -32767 := by
  rw [decodeSample_sample, decodeSample_predictor] at h ⊢
  exact clampPredictor_nds_of_ima_floor h

/-- A byte whose two IMA samples are above the floor decodes alike under both variants. -/
theorem decodeByte_nds_eq_ima {b : Byte} (h₁ : (decodeByte (p.withVariant .ima) st b).2.1.toInt ≠ -32768)
    (h₂ : (decodeByte (p.withVariant .ima) st b).2.2.toInt ≠ -32768) :
    decodeByte (p.withVariant .nds) st b = decodeByte (p.withVariant .ima) st b := by
  simp only [decodeByte_eq, Straps.withVariant_variant, Straps.withVariant_nibbleOrder] at h₁ h₂ ⊢
  rw [decodeSample_nds_eq_ima h₁, decodeSample_nds_eq_ima h₂]

/-- Bytes whose IMA samples are all above the floor decode alike under both variants (R154). -/
theorem decodeBytes_nds_eq_ima (bytes : List Byte)
    (h : ∀ x ∈ (decodeBytes (p.withVariant .ima) st bytes).2, x.toInt ≠ -32768) :
    decodeBytes (p.withVariant .nds) st bytes = decodeBytes (p.withVariant .ima) st bytes := by
  induction bytes generalizing st with
  | nil => rfl
  | cons b rest ih =>
    simp only [decodeBytes, List.forall_mem_cons] at h ⊢
    obtain ⟨hfirst, hsecond, hrest⟩ := h
    rw [decodeByte_nds_eq_ima hfirst hsecond, ih hrest]

/-- The codes of a run of bytes in the streaming commands' decode order (43_streaming.md R112). -/
def streamCodes (order : NibbleOrder) : List Byte → List Code
  | [] => []
  | b :: rest => (nibbles order b).1 :: (nibbles order b).2 :: streamCodes order rest

/-- The samples of a run of bytes are those of its codes (43_streaming.md R117). -/
theorem decodeBytes_samples (p : Straps) (st : ChannelState) (bytes : List Byte) :
    (decodeBytes p st bytes).2 = decodeCodes p.variant st (streamCodes p.nibbleOrder bytes) := by
  induction bytes generalizing st with
  | nil => rfl
  | cons b rest ih => simp only [decodeBytes, decodeByte_eq, streamCodes, decodeCodes, ih]

/-- Up to the first IMA sample at the floor the variants decode the same samples, and there NDS answers -32767: a sample
above the floor leaves both in the same state (R154). -/
theorem decodeCodes_nds_at_ima_floor (codes : List Code) {j : Nat} (h : j < (decodeCodes .ima st codes).length)
    (hbefore : ∀ x ∈ (decodeCodes .ima st codes).take j, x.toInt ≠ -32768)
    (hj : (decodeCodes .ima st codes)[j].toInt = -32768) :
    (decodeCodes .nds st codes).take j = (decodeCodes .ima st codes).take j ∧
      (decodeCodes .nds st codes)[j]?.map BitVec.toInt = some (-32767) := by
  induction codes generalizing st j with
  | nil => exact absurd h (Nat.not_lt_zero j)
  | cons s rest ih =>
    cases j with
    | zero =>
      simp only [decodeCodes, List.getElem_cons_zero] at hj
      simp only [decodeCodes, List.take_zero, List.getElem?_cons_zero, Option.map_some, decodeSample_nds_of_ima_floor hj,
        and_self]
    | succ j =>
      simp only [decodeCodes, List.take_succ_cons, List.forall_mem_cons, List.getElem_cons_succ,
        List.getElem?_cons_succ] at hbefore hj ⊢
      obtain ⟨hfirst, hbefore⟩ := hbefore
      obtain ⟨htake, hat⟩ := ih _ hbefore hj
      rw [decodeSample_nds_eq_ima hfirst]
      exact ⟨congrArg _ htake, hat⟩

/-- Settles O56: both clauses hold from every predictor, as every sample is clamped. -/
theorem variantsAgreeUntilFloor : Obligations.VariantsAgreeUntilFloor := by
  intro p st bytes _
  refine ⟨decodeBytes_nds_eq_ima bytes, fun j h hbefore hj => ?_⟩
  simp only [decodeBytes_samples] at h hbefore hj ⊢
  exact decodeCodes_nds_at_ima_floor _ h hbefore hj

end Sys2Proof.Machine
end

section
/-! One channel in the low-first order: the block decoder and the streaming decoder agree (45_laws.md R155). -/

namespace Sys2Proof.Machine

variable {s : State}

/-- With one scratch channel every code is that channel's, and LOW_FIRST is the block's order of codes, so the round-robin
decode is the stream's (42_block_decoder.md R102, R103). -/
theorem decodeRoundRobin_one {p : Straps} (hp : p.nibbleOrder = .lowFirst) (k : Nat) (st : ChannelState)
    (bytes : List Byte) :
    decodeRoundRobin p.variant 1 k [st] (blockCodes bytes) = tagSamples 0 (decodeBytes p st bytes).2 := by
  induction bytes generalizing k st with
  | nil => rfl
  | cons b rest ih =>
    have hnib : nibbles p.nibbleOrder b = (lowNibble b, highNibble b) := by rw [hp]; rfl
    simp only [blockCodes, decodeRoundRobin, Nat.mod_one, List.getD_cons_zero, List.set_cons_zero, ih, decodeBytes,
      tagSamples, List.map_cons, decodeByte_eq, hnib]

/-- The state SEED_BYTES leaves with one channel, its response delivered (43_streaming.md R115). -/
def State.afterSeedOne (s : State) : State :=
  { s with
    ch := [preambleAt s.straps s.inBuf s.inCur.toNat]
    inCur := s.inCur + BitVec.ofNat 32 4
    responses := s.responses ++ [⟨.ok, s.inCur + BitVec.ofNat 32 4⟩] }

theorem exec_seedBytes_one (hs : s.Inv) (h1 : s.straps.nch = 1) (hn : 4 ≤ s.inAvail) :
    exec .seedBytes s = .next s.afterSeedOne := by
  rw [exec_seedBytes hs (by omega), h1]
  rfl

theorem State.inAvail_afterSeedOne (hn : 4 ≤ s.inAvail) : s.afterSeedOne.inAvail = s.inAvail - 4 := by
  have hcur : s.afterSeedOne.inCur.toNat = s.inCur.toNat + 4 := State.cursor_add hn
  rw [State.inAvail, hcur, show s.afterSeedOne.inLen = s.inLen from rfl, State.inAvail]
  omega

/-- The stream behind the one preamble is the block's run (R155). -/
theorem State.streamEntries_afterSeedOne (hp : s.straps.nibbleOrder = .lowFirst) (hn : 4 ≤ s.inAvail) :
    s.afterSeedOne.streamEntries 0 (s.inAvail - 4) = s.blockEntries 1 := by
  have hcur : s.afterSeedOne.inCur.toNat = s.inCur.toNat + 4 := State.cursor_add hn
  calc s.afterSeedOne.streamEntries 0 (s.inAvail - 4)
    _ = tagSamples 0 (decodeBytes s.straps (preambleAt s.straps s.inBuf s.inCur.toNat)
          (Memory.bytesAt s.inBuf (s.inCur.toNat + 4) (s.inAvail - 4))).2 := by
        rw [State.streamEntries, State.upcoming, hcur]
        rfl
    _ = s.blockEntries 1 := (decodeRoundRobin_one hp 0 _ _).symm

/-- Settles O57: SEED_BYTES installs the block's one preamble, and PARSE of the rest is then the block's run. -/
theorem blockAgreesWithStreaming : Obligations.BlockAgreesWithStreaming := by
  intro s hs h1 hp hn
  have hseed := exec_seedBytes_one hs h1 hn
  have hrest := State.inAvail_afterSeedOne hn
  have hc : 0 < s.afterSeedOne.straps.nch := (nch_le _).1
  have hparse : exec (.parse 0 (s.inAvail - 4)) s.afterSeedOne = .next (s.afterSeedOne.afterPart true 0 (s.inAvail - 4)) :=
    exec_parse_eq (hs.exec_next hseed) hc hrest.ge
  refine ⟨_, _, (runCommands_cons hseed).trans (runCommands_cons hparse), exec_blockDecode le_rfl h1.ge hn, ?_, ?_, rfl⟩
  · rw [State.afterPart_out, if_pos rfl, State.streamEntries_afterSeedOne hp hn]
    rfl
  · calc s.inCur + BitVec.ofNat 32 4 + BitVec.ofNat 32 (s.inAvail - 4)
      _ = s.inCur + BitVec.ofNat 32 s.inAvail := by rw [BitVec.add_assoc, ← BitVec.ofNat_add, Nat.add_sub_cancel' hn]
      _ = s.inLen := State.inCur_add_inAvail (by omega)

end Sys2Proof.Machine
end

section
/-! Where commands stop: waiting, the channel error that comes first, and the faults and refusals (60_exceptions.md R161, R165,
R167, R176). -/

namespace Sys2Proof.Machine

/-- Settles O11: with an empty program the step is the waiting core's. -/
theorem waitingChangesNothing : Obligations.WaitingChangesNothing := fun _ => step_nil

/-- A command that names a channel does everything behind the check of that channel (43_streaming.md R110, R111). -/
theorem exec_eq_onChannel {i : Instr} {c : Nat} (s : State) (hi : i.channel? = some c) :
    ∃ body, exec i s = s.onChannel c body := by
  cases i with
  | seed | parse | parseBlocks | skip | getState | setState =>
    obtain rfl := Option.some.inj hi
    exact ⟨_, rfl⟩
  | seedBytes | blockDecode | encodeStub | seek => cases hi

/-- Settles O42: the channel check stands before every other test of such a command, and its answer is the response alone. -/
theorem invalidChannelReportedFirst : Obligations.InvalidChannelReportedFirst := by
  intro i c s hi hc
  obtain ⟨body, hbody⟩ := exec_eq_onChannel s hi
  rw [hbody]
  exact State.onChannel_of_le hc

/-- The result is a fault exactly if `p`, and a refusal exactly if `q` (60_exceptions.md R165). -/
def StopsWhere (r : Result) (p q : Prop) : Prop := ((∃ f, r = .fault f) ↔ p) ∧ ((∃ f, r = .refused f) ↔ q)

section
variable {s t : State} {c : Nat} {body : Result} {f : Fault} {e : Refusal} {g p q : Prop}

/-- A next state is no stop. -/
theorem StopsWhere.next (hp : ¬p) (hq : ¬q) : StopsWhere (.next t) p q :=
  ⟨iff_of_false (by simp) hp, iff_of_false (by simp) hq⟩

theorem StopsWhere.fault (hp : p) (hq : ¬q) : StopsWhere (.fault f) p q :=
  ⟨iff_of_true ⟨f, rfl⟩ hp, iff_of_false (by simp) hq⟩

theorem StopsWhere.refused (hp : ¬p) (hq : q) : StopsWhere (.refused e) p q :=
  ⟨iff_of_false (by simp) hp, iff_of_true ⟨e, rfl⟩ hq⟩

/-- A command with one guarded fault is stuck where its guard holds. -/
theorem StopsWhere.faultIf [Decidable g] (hp : p ↔ g) : StopsWhere (if g then .fault f else .next t) p False := by
  split
  case isTrue hg => exact .fault (hp.mpr hg) id
  case isFalse hg => exact .next (mt hp.mp hg) id

/-- A command with one guarded refusal is refused where its guard holds. -/
theorem StopsWhere.refuseIf [Decidable g] (hq : q ↔ g) : StopsWhere (if g then .refused e else .next t) False q := by
  split
  case isTrue hg => exact .refused id (hq.mpr hg)
  case isFalse hg => exact .next id (mt hq.mp hg)

/-- An invalid channel is answered, so a command stops behind its channel check on a valid channel only (R161, R167). -/
theorem StopsWhere.onChannel (h : c < s.straps.nch → StopsWhere body p q) (hp : p → c < s.straps.nch)
    (hq : q → c < s.straps.nch) : StopsWhere (s.onChannel c body) p q := by
  rcases Nat.lt_or_ge c s.straps.nch with hc | hc
  · rw [State.onChannel_of_lt hc]
    exact h hc
  · rw [State.onChannel_of_le hc]
    exact .next (mt hp hc.not_gt) (mt hq hc.not_gt)

/-- BLOCK_DECODE answers a count that is not valid, and is stuck on a valid one with its preambles not all there (R107, R108). -/
theorem exec_blockDecode_stopsWhere :
    StopsWhere (exec (.blockDecode c) s) (1 ≤ c ∧ c ≤ s.straps.nch ∧ s.inAvail < 4 * c) False := by
  by_cases hc : c = 0 ∨ s.straps.nch < c
  · rw [exec_blockDecode_badCount hc]
    exact .next (by omega) id
  · obtain ⟨h1, hn⟩ : 1 ≤ c ∧ c ≤ s.straps.nch := by omega
    rcases Nat.lt_or_ge s.inAvail (4 * c) with hshort | hall
    · rw [exec_blockDecode_short h1 hn hshort]
      exact .fault ⟨h1, hn, hshort⟩ id
    · rw [exec_blockDecode h1 hn hall]
      exact .next (by omega) id

end

/-- Settles O48: each command has at most one stop, behind one guard, and those that name a channel check it before. -/
theorem commandsStopExactlyWhere : Obligations.CommandsStopExactlyWhere := by
  intro i s
  cases i with
  | seed | getState => exact StopsWhere.onChannel (fun _ => .next id id) False.elim False.elim
  | seedBytes => exact StopsWhere.faultIf Iff.rfl
  | parse | parseBlocks | skip => exact StopsWhere.onChannel (fun hc => .faultIf (and_iff_right hc)) And.left False.elim
  | setState => exact StopsWhere.onChannel (fun hc => .refuseIf (and_iff_right hc)) False.elim And.left
  | blockDecode => exact exec_blockDecode_stopsWhere
  | encodeStub | seek => exact StopsWhere.next id id

end Sys2Proof.Machine
end

section
/-! What the host's own actions do: loading the input, reading and removing output (70_reset_and_hazards.md R186). -/

namespace Sys2Proof.Machine

variable {bytes : List Byte} {s : State}

theorem performAction_loadInput_of_le (h : bytes.length ≤ maxInputLength) :
    performAction (.loadInput bytes) s = .next (s.loadInput bytes) := if_neg h.not_gt

theorem performAction_loadInput_of_gt (h : maxInputLength < bytes.length) :
    performAction (.loadInput bytes) s = .refused .inputTooLong := if_pos h

/-- `IN_LEN` counts the loaded bytes without loss: 32 bits hold the length of every buffer that fits (10_state.md R26). -/
theorem State.inLen_loadInput_toNat (h : bytes.length ≤ maxInputLength) :
    (s.loadInput bytes).inLen.toNat = bytes.length := by
  rw [maxInputLength] at h
  rw [State.loadInput_inLen, BitVec.toNat_ofNat, Nat.mod_eq_of_lt (by omega)]

theorem State.read_loadInput {i : Nat} (h : i < bytes.length) : Memory.read (s.loadInput bytes).inBuf i = bytes[i] :=
  calc Memory.read (Memory.ofBytes 0 bytes) i
    _ = Memory.read (Memory.ofBytes 0 bytes) (0 + i) := by rw [Nat.zero_add]
    _ = bytes.getD i Memory.unlisted := Memory.read_ofBytes bytes 0 i
    _ = bytes[i] := List.getD_eq_getElem _ _ h

/-- Settles O14: the step is the load, performed on the program behind it, and the load's guard decides between the clauses. -/
theorem loadedInputReadsBack : Obligations.LoadedInputReadsBack := by
  intro s bytes rest hp
  constructor
  · intro hfits
    refine ⟨(s.withPending rest).loadInput bytes, ?_, State.inLen_loadInput_toNat hfits, fun _ => State.read_loadInput,
      Memory.wf_ofBytes bytes, rfl⟩
    rw [step_cons hp, performAction_loadInput_of_le hfits]
  · intro hlong
    rw [step_cons hp, performAction_loadInput_of_gt hlong]

/-- Settles O15: each step is the host's action, performed on the program behind it. -/
theorem hostReadsAndDrainsOutput : Obligations.HostReadsAndDrainsOutput :=
  fun _ _ => ⟨step_cons, step_cons, fun _ => step_cons⟩

end Sys2Proof.Machine
end

section
/-! The end of a run: a run goes on step by step, has one response for each command, and has no result when a step stops
before (70_reset_and_hazards.md R185). -/

namespace Sys2Proof.Machine

variable {s : State}

theorem State.runOver_eq_false {w : Command} (h : HostAction.issue w ∈ s.pending) : s.runOver = false :=
  Bool.eq_false_iff.mpr fun hover => State.runOver_iff.mp hover w h

theorem State.no_command_of_over (h : s.runOver = true) : s.pending.filter HostAction.isCommand = [] := by
  rw [List.filter_eq_nil_iff]
  intro a ha hc
  obtain ⟨w, rfl⟩ := HostAction.isCommand_iff.mp hc
  exact State.runOver_iff.mp h w ha

/-- A run that is over has no command left, and its result is that of this state. -/
theorem State.result?_responses_of_over {r : RunResult} (hs : s.runOver = true) (h : s.result? = some r) :
    ∃ rs, r.responses = s.responses ++ rs ∧ rs.length = (s.pending.filter HostAction.isCommand).length := by
  rw [State.result?_of_over hs] at h
  rw [State.no_command_of_over hs, ← Option.some.inj h]
  exact ⟨[], (List.append_nil _).symm, rfl⟩

/-- A run that is not over has no result when its next step gives no next state. -/
theorem State.result?_of_stop (hs : s.runOver = false) (h : ∀ t, step s ≠ .next t) : s.result? = none := by
  suffices hend : ∀ n, runToEnd n s = none by rw [State.result?, hend, Option.map_none]
  intro n
  unfold runToEnd
  rw [hs, if_neg Bool.false_ne_true]
  cases n with
  | zero => rfl
  | succ n =>
    cases hstep : step s with
    | next t => exact absurd hstep (h t)
    | fault _ => rfl
    | refused _ => rfl

/-- A run with a result that is not over has a next step, and goes on with the same result. -/
theorem State.exists_next_of_result {r : RunResult} (hs : s.runOver = false) (h : s.result? = some r) :
    ∃ t, step s = .next t ∧ t.result? = some r := by
  by_cases hnext : ∃ t, step s = .next t
  · obtain ⟨t, ht⟩ := hnext
    exact ⟨t, ht, State.result?_of_next hs ht ▸ h⟩
  · rw [State.result?_of_stop hs (not_exists.mp hnext)] at h
    cases h

/-- Each step of a run uses up one action of its program, and delivers one response exactly when that action is a command. -/
theorem State.result?_responses {r : RunResult} (h : s.result? = some r) :
    ∃ rs, r.responses = s.responses ++ rs ∧ rs.length = (s.pending.filter HostAction.isCommand).length := by
  generalize hp : s.pending = program
  induction program generalizing s with
  | nil => exact hp ▸ State.result?_responses_of_over (State.runOver_iff.mpr (by simp [hp])) h
  | cons a rest ih =>
    cases hs : s.runOver with
    | true => exact hp ▸ State.result?_responses_of_over hs h
    | false =>
      obtain ⟨t, ht, hr⟩ := State.exists_next_of_result hs h
      rw [step_cons hp] at ht
      obtain ⟨first, hfirst, hone⟩ := performAction_responses ht
      obtain ⟨later, hlater, hlen⟩ := ih hr (performAction_pending ht)
      refine ⟨first ++ later, ?_, ?_⟩
      · rw [hlater, hfirst, State.withPending_responses, List.append_assoc]
      · rw [List.length_append, hone, hlen, List.filter_cons]
        split <;> simp [Nat.add_comm]

/-- Settles O60: the first clause by induction on the program, the others from how a run ends, goes on and stops. -/
theorem runEndsWithLastResponse : Obligations.RunEndsWithLastResponse := by
  refine ⟨fun _ _ => State.result?_responses, fun _ h => State.result?_of_over (State.runOver_iff.mpr h),
    fun _ _ _ hw => State.result?_of_next (State.runOver_eq_false hw), ?_⟩
  intro s w rest hp hstop
  have hw : HostAction.issue w ∈ s.pending := hp ▸ List.mem_cons_self
  refine State.result?_of_stop (State.runOver_eq_false hw) fun t ht => ?_
  rw [ht] at hstop
  obtain ⟨_, hf⟩ | ⟨_, hr⟩ := hstop
  · cases hf
  · cases hr

end Sys2Proof.Machine
end
